-- ==== Sys2Proof/Word.lean ====
section
/-! DEFINITION. The word types of PA-CACHE: the byte (R50), the 32-bit address and value word (R7), the 100-bit
request word (R84). -/

namespace Sys2Proof

/-- A byte is 8 bits (R50). -/
abbrev Byte := BitVec 8

/-- A request address, a store value, a counter, a timestamp, a stored tag or a geometry register: 32 bits,
unsigned (R7, R10, R21). -/
abbrev Word := BitVec 32

/-- The request word `REQ[99:0]` in which a command is presented (R84). -/
abbrev Req := BitVec 100

end Sys2Proof
end

