-- ==== Sys2Proof/Config.lean ====
section
/-! DEFINITION. What this hardware fixes (the parameter table of `00_scope.md` section 4) and the one value the spec
leaves open to every implementation, MEM_INIT. -/

namespace Sys2Proof

/-- `MEM_SIZE`, the bytes of Memory: 8 KiB in the reference configuration (R8). Log entry 15. -/
def Config.memSize : Nat := 8192

/-- `CYCLES_HIT`, what `cycles` advances by on a hit (R9). Log entry 15. -/
def Config.cyclesHit : Word := 1#32

/-- `CYCLES_MISS`, what `cycles` advances by on a miss (R9). Log entry 15. -/
def Config.cyclesMiss : Word := 100#32

/-- `MAX_BLOCK_BYTES`, the OPEN upper limit on `block_size_bytes`: by default there is none (R224 condition 7).
DESIGN CHOICE, unsafe; log entry 9. -/
def Config.maxBlockBytes : Option Nat := none

/-- `MAX_NUM_BLOCKS`, the OPEN upper limit on `num_blocks`: by default there is none (R224 condition 7).
DESIGN CHOICE, unsafe; log entry 9. -/
def Config.maxNumBlocks : Option Nat := none

/-- `MEM_INIT`, the bytes Memory holds after reset (R12): a FREE VALUE. The constant has no body, so nothing can be
proved of its bytes; byte `a` of Memory after reset is the list's element `a` (0 past its end, so that every sequence
of `MEM_SIZE` bytes is some value of it). DESIGN CHOICE, safe; log entry 3. -/
opaque Config.memInit : List Byte

end Sys2Proof
end

