-- ==== Sys2Proof/Machine/State.lean ====
section
/-! DEFINITION. The state of the block (`10_state.md`), the response record (R93), and the reasons a step can stop. -/

namespace Sys2Proof.Machine

/-- The values of the miss-handler state register (R151). -/
inductive Fsm where
  | idle | check | lookup | hitUpdate | victim | writeback | fill | writeWord | account | respond
deriving DecidableEq, Repr

/-- The outcome of a LOAD or STORE that is not rejected (R92). -/
inductive HitMiss where
  | hit | miss
deriving DecidableEq, Repr

/-- The status of a response (R94); the last four are the errors (R250). -/
inductive Status where
  | hit | miss | done | configError | outOfBounds | sequenceError | illegalCommand
deriving DecidableEq, Repr

/-- The three geometry registers (R21). -/
structure Geometry where
  blockSizeBytes : Word
  numBlocks : Word
  numWays : Word
deriving DecidableEq, Repr

/-- A line of the line store (R24); also the snapshot of one that `dump_cache` returns (R96). -/
structure Line where
  valid : Bool
  dirty : Bool
  tag : Word
  timestamp : Word
  data : List Byte
deriving DecidableEq, Repr

/-- Memory (R35): `init` is MEM_INIT (R12), which no step changes; `cells` lists the bytes that differ from it, by
rising address. The canonical form is `Memory.wf` of Machine/Ops.lean. Log entry 3. -/
structure Memory where
  cells : List Host.Cell
  init : List Byte
deriving DecidableEq, Repr

/-- What a response carries beside its status (R93). -/
inductive Payload where
  | none
  /-- `rdata` of LOAD and STORE (R163, R188). -/
  | word (rdata : Word)
  /-- the three counters of STATS, in R93's order -/
  | counters (hits misses cycles : Word)
  /-- the bytes of DUMP_MEMORY, lowest address first -/
  | bytes (bs : List Byte)
  /-- the line snapshots of DUMP_CACHE, lowest linear index first -/
  | lines (ls : List Line)
deriving DecidableEq, Repr

/-- The response record of a command (R93). -/
structure Response where
  status : Status
  payload : Payload
deriving DecidableEq, Repr

/-- What the host can do: present a request word (R84), or apply reset (R280). It has no other move (R290).
Log entries 1, 8, 13. -/
inductive HostMove where
  | command (r : Req)
  | reset
deriving DecidableEq, Repr

/-- The state of the block: everything R20 lists, and three fields of the model's own (`mem.init`, `hostMoves`,
`response`; log entries 3, 1, 2). -/
structure State where
  /-- R33 -/
  configured : Bool
  /-- R21; no meaning while `configured` is false -/
  geometry : Geometry
  /-- R23; the line of set `s`, way `w` is element `s * num_ways + w` (R25) -/
  lines : List Line
  /-- R30 -/
  cycles : Word
  /-- R31 -/
  hits : Word
  /-- R32 -/
  misses : Word
  /-- R35 -/
  mem : Memory
  /-- R36 -/
  fsm : Fsm
  /-- the host's moves still to come, oldest first (R38, R65); the model's own -/
  hostMoves : List HostMove
  /-- the response of the last command completed (R93); the model's own -/
  response : Option Response
deriving DecidableEq, Repr

/-- Why the machine stops. No state that satisfies the invariant of Safety.lean raises any of these; they are the
model's answer in states that no run reaches and to which the spec gives no meaning. Each is safe: the model stops
where no hardware state exists. Log entry 5. -/
inductive Fault where
  /-- Raised by LOAD and STORE when `configured` is set and the geometry registers hold no valid geometry, so that
  `log2` has no value (R110, U2). Safe. -/
  | invalidGeometry
  /-- Raised by LOAD and STORE when the line store does not hold the line (set, way) that R25 names. Safe. -/
  | noSuchLine
  /-- Raised by LOAD and STORE when a line's buffer does not hold `block_size_bytes` bytes (R34). Safe. -/
  | badLineBuffer
  /-- Raised by a fill or a write-back that would touch a byte at or above MEM_SIZE (R56, R57, U1). Safe. -/
  | outsideMemory
deriving DecidableEq, Repr

/-- Why the model gives no next state. -/
inductive Refusal where
  /-- Raised by an arm of `exec` whose instruction has no meaning yet; no arm raises it. Safe. -/
  | notModelled (mnemonic : String)
  /-- Raised by `step` when the host moves while a command is in progress (`fsm` is not IDLE): the block "defines no
  behaviour for overlapping requests" (R291, U9). Safe; log entry 7. -/
  | commandInProgress
deriving DecidableEq, Repr

/-- The block right after reset (R40, R280). The geometry registers' zeros are the model's (DESIGN CHOICE, unsafe, log
entry 4); so are the empty `hostMoves` and `response` (log entries 1, 2). -/
def State.reset : State where
  configured := false
  geometry := ⟨0#32, 0#32, 0#32⟩
  lines := []
  cycles := 0#32
  hits := 0#32
  misses := 0#32
  mem := ⟨[], Config.memInit⟩
  fsm := .idle
  hostMoves := []
  response := none

end Sys2Proof.Machine
end

