-- ==== Sys2Proof/Machine/Operands.lean ====
section
/-! DEFINITION. Operands: the geometry and what is derived from it (R11, R22, R110 to R113, R222, R224), the address
decomposer (R114 to R122), the bounds predicates (R62, R231), and the assembly of bytes into words (R15, R52). -/

namespace Sys2Proof.Machine

/-! ### Powers of two and logarithms -/

/-- `log2(n)`, defined exactly for the powers of two (R110); any other number has no value (U2). -/
def log2? (n : Nat) : Option Nat := if 2 ^ n.log2 = n then some n.log2 else none

/-- `is_pow2(n)` (R222). -/
def isPow2 (n : Nat) : Bool := (log2? n).isSome

/-! ### The geometry -/

/-- Whether a value respects an upper limit, where there is one (R224 condition 7). -/
def withinLimit (n : Nat) (limit : Option Nat) : Bool :=
  match limit with
  | some m => decide (n ≤ m)
  | none => true

/-- R224 condition 6: `log2(bs) + log2(nb / nw) <= 32`; false where a logarithm has no value. -/
def indexFits (bs ns : Nat) : Bool :=
  match log2? bs, log2? ns with
  | some ob, some ib => decide (ob + ib ≤ 32)
  | _, _ => false

/-- `valid_geometry(bs, nb, nw)`: the seven conditions of R224 in its order. -/
def validGeometry (bs nb nw : Word) : Bool :=
  decide (nw.toNat ≠ 0)
    && decide (nb.toNat % nw.toNat = 0)
    && isPow2 bs.toNat
    && isPow2 (nb.toNat / nw.toNat)
    && decide (4 ≤ bs.toNat)
    && indexFits bs.toNat (nb.toNat / nw.toNat)
    && withinLimit bs.toNat Config.maxBlockBytes
    && withinLimit nb.toNat Config.maxNumBlocks

/-- What is derived from the geometry registers (R22), as numbers. -/
structure Shape where
  blockBytes : Nat
  numSets : Nat
  numWays : Nat
  offsetBits : Nat
  indexBits : Nat
deriving DecidableEq, Repr

/-- The derived quantities of a geometry (R11, R22, R111, R112), where it is valid (R224); a geometry that is not has
none, since `log2` has no value on it (R110). -/
def Geometry.shape? (g : Geometry) : Option Shape :=
  if validGeometry g.blockSizeBytes g.numBlocks g.numWays then
    match log2? g.blockSizeBytes.toNat, log2? (g.numBlocks.toNat / g.numWays.toNat) with
    | some ob, some ib =>
      some
        { blockBytes := g.blockSizeBytes.toNat
          numSets := g.numBlocks.toNat / g.numWays.toNat
          numWays := g.numWays.toNat
          offsetBits := ob
          indexBits := ib }
    | _, _ => none
  else none

/-- `tag_bits = 32 - index_bits - offset_bits` (R113). -/
def Shape.tagBits (sh : Shape) : Nat := 32 - sh.indexBits - sh.offsetBits

/-! ### The address decomposer -/

/-- `block_number(addr) = addr >> offset_bits` (R114). -/
def blockNumber (sh : Shape) (addr : Word) : Nat := addr.toNat >>> sh.offsetBits

/-- `set_index(addr) = (addr >> offset_bits) mod num_sets` (R115). -/
def setIndex (sh : Shape) (addr : Word) : Nat := blockNumber sh addr % sh.numSets

/-- `tag(addr) = (addr >> offset_bits) >> index_bits`, masked to `tag_bits` bits (R116). -/
def tagOf (sh : Shape) (addr : Word) : Nat := (blockNumber sh addr >>> sh.indexBits) % 2 ^ sh.tagBits

/-- The tag as the 32-bit register of a line holds it, the bits above `tag_bits` zero (R28). -/
def tagReg (sh : Shape) (addr : Word) : Word := BitVec.ofNat 32 (tagOf sh addr)

/-- `offset(addr) = addr mod block_size_bytes` (R117). -/
def offsetOf (sh : Shape) (addr : Word) : Nat := addr.toNat % sh.blockBytes

/-- `block_start(addr) = addr - (addr mod block_size_bytes)` (R118). -/
def blockStart (sh : Shape) (addr : Word) : Nat := addr.toNat - addr.toNat % sh.blockBytes

/-- `word_offset(addr) = (addr - (addr mod 4)) mod block_size_bytes` (R119). -/
def wordOffset (sh : Shape) (addr : Word) : Nat := (addr.toNat - addr.toNat % 4) % sh.blockBytes

/-- `block_address_of(t, s) = (t * num_sets + s) * block_size_bytes` (R122), with the SET index
(`90_conflicts.md` C1). -/
def blockAddressOf (sh : Shape) (t s : Nat) : Nat := (t * sh.numSets + s) * sh.blockBytes

/-! ### Bounds -/

/-- `in_bounds(addr) := block_start(addr) + block_size_bytes <= MEM_SIZE` (R62). -/
def inBounds (sh : Shape) (addr : Word) : Bool := decide (blockStart sh addr + sh.blockBytes ≤ Config.memSize)

/-- The bounds of `dump_memory`: `addr + length <= MEM_SIZE`, the sum not reduced modulo 2^32 (R231). -/
def dumpInBounds (addr length : Word) : Bool := decide (addr.toNat + length.toNat ≤ Config.memSize)

/-! ### Bytes and words -/

/-- `be32(v)`: the four bytes of a word, most significant first (R15). -/
def be32 (v : Word) : List Byte :=
  [v.extractLsb' 24 8, v.extractLsb' 16 8, v.extractLsb' 8 8, v.extractLsb' 0 8]

/-- `unbe32([b0, b1, b2, b3]) = b0*2^24 + b1*2^16 + b2*2^8 + b3` (R15); other lengths have no value. -/
def unbe32 (bs : List Byte) : Option Word :=
  match bs with
  | [b0, b1, b2, b3] =>
    some (BitVec.ofNat 32 (b0.toNat * 2 ^ 24 + b1.toNat * 2 ^ 16 + b2.toNat * 2 ^ 8 + b3.toNat))
  | _ => none

/-- `buf[o .. o+n-1]` (R15). -/
def slice (buf : List Byte) (o n : Nat) : List Byte := (buf.drop o).take n

/-- `buf[o .. o+n-1] <- v`, `n` the length of `v` (R15, R52). -/
def splice (buf : List Byte) (o : Nat) (v : List Byte) : List Byte := buf.take o ++ v ++ buf.drop (o + v.length)

end Sys2Proof.Machine
end

