-- ==== Sys2Proof/Machine/Flags.lean ====
section
/-! DEFINITION. Flags and counters: the status codes (R94), the line flags `valid` and `dirty` (R26, R27) with the
stamp (R29), and the accounting step on `hits`, `misses` and `cycles` (R200). -/

namespace Sys2Proof.Machine

/-! ### Status -/

/-- The 4-bit code of a status (R94). -/
def Status.code (st : Status) : BitVec 4 :=
  match st with
  | .hit => 0x0#4
  | .miss => 0x1#4
  | .done => 0x2#4
  | .configError => 0x8#4
  | .outOfBounds => 0x9#4
  | .sequenceError => 0xA#4
  | .illegalCommand => 0xB#4

/-- Bit 3 of the code set means the command was rejected (R94). -/
def Status.isError (st : Status) : Bool := st.code.getLsbD 3

/-- The status that reports an outcome (R93). -/
def HitMiss.status (o : HitMiss) : Status :=
  match o with
  | .hit => .hit
  | .miss => .miss

/-! ### The flags of a line -/

/-- A line as a successful CONFIGURE creates it, with `blockBytes` zero bytes of data (R41). -/
def Line.empty (blockBytes : Nat) : Line := ⟨false, false, 0#32, 0#32, List.replicate blockBytes 0#8⟩

/-- The stamp of an access: `timestamp <- cycles` (R29, R155). -/
def Line.stamp (l : Line) (now : Word) : Line := { l with timestamp := now }

/-- What a fill writes: `valid`, `tag`, `data`, `timestamp`, and not `dirty` (R160, R161). -/
def Line.filled (l : Line) (t now : Word) (d : List Byte) : Line :=
  { l with valid := true, tag := t, data := d, timestamp := now }

/-- `dirty <- 1`, by a STORE (R186). -/
def Line.markDirty (l : Line) : Line := { l with dirty := true }

/-- `dirty <- 0`, by a write-back (R158). -/
def Line.clearDirty (l : Line) : Line := { l with dirty := false }

/-- The word write of a STORE: the four bytes of `v`, most significant first, at offset `o` (R184). -/
def Line.putWord (l : Line) (o : Nat) (v : Word) : Line := { l with data := splice l.data o (be32 v) }

/-! ### The counters -/

/-- The accounting step (R200): each counter modulo 2^32 (R204). -/
def account (o : HitMiss) (s : State) : State :=
  match o with
  | .hit => { s with hits := s.hits + 1#32, cycles := s.cycles + Config.cyclesHit }
  | .miss => { s with misses := s.misses + 1#32, cycles := s.cycles + Config.cyclesMiss }

end Sys2Proof.Machine
end

