-- ==== Sys2Proof/Machine/Ops.lean ====
section
/-! DEFINITION. The named operations: Memory (R35, R56, R57), the line store (R23, R25), the response and the rejection
of a command (R93, R256), reset (R280). -/

namespace Sys2Proof.Machine

/-! ### Memory -/

/-- What an address that Memory does not list reads as: its byte of MEM_INIT (R35, R40). Log entry 3. -/
def Memory.unlisted (m : Memory) (a : Nat) : Byte := m.init.getD a 0#8

/-- The byte a list of cells holds at an address, if it lists it. -/
def lookupCell (cells : List Host.Cell) (a : Nat) : Option Byte :=
  match cells with
  | [] => none
  | c :: cs => if c.1 = a then some c.2 else lookupCell cs a

/-- The list with address `a` holding `v`, in rising order of address. -/
def insertCell (cells : List Host.Cell) (a : Nat) (v : Byte) : List Host.Cell :=
  match cells with
  | [] => [(a, v)]
  | c :: cs => if a < c.1 then (a, v) :: c :: cs else if a = c.1 then (a, v) :: cs else c :: insertCell cs a v

/-- The list without address `a`. -/
def eraseCell (cells : List Host.Cell) (a : Nat) : List Host.Cell := cells.filter (fun c => c.1 != a)

/-- `M[a]` (R16). -/
def Memory.read (m : Memory) (a : Nat) : Byte := (lookupCell m.cells a).getD (m.unlisted a)

/-- `M[a] <- v`, keeping the canonical form: a byte equal to its MEM_INIT byte is not listed. -/
def Memory.write (m : Memory) (a : Nat) (v : Byte) : Memory :=
  { m with cells := if v = m.unlisted a then eraseCell m.cells a else insertCell m.cells a v }

/-- `[M[a], M[a+1], ..., M[a+n-1]]` (R56). -/
def Memory.readBytes (m : Memory) (a n : Nat) : List Byte := (List.range n).map (fun i => m.read (a + i))

/-- `M[a+i] <- v[i]` in ascending `i` (R57). -/
def Memory.writeBytes (m : Memory) (a : Nat) (v : List Byte) : Memory :=
  match v with
  | [] => m
  | b :: bs => (m.write a b).writeBytes (a + 1) bs

/-- The canonical form of Memory: addresses strictly rising, inside Memory, and no byte listed that equals what its
address reads as unlisted. -/
abbrev Memory.wf (m : Memory) : Prop :=
  m.cells.Pairwise (fun c d => c.1 < d.1) ∧ ∀ c ∈ m.cells, c.1 < Config.memSize ∧ c.2 ≠ m.unlisted c.1

/-- `MemRead(addr, n)`, defined only when `addr + n <= MEM_SIZE` (R56). -/
def memRead (m : Memory) (addr n : Nat) : Except Fault (List Byte) :=
  if addr + n ≤ Config.memSize then .ok (m.readBytes addr n) else .error .outsideMemory

/-- `MemWrite(addr, n, v)`, `n` the length of `v`, defined only when `addr + n <= MEM_SIZE` (R57). -/
def memWrite (m : Memory) (addr : Nat) (v : List Byte) : Except Fault Memory :=
  if addr + v.length ≤ Config.memSize then .ok (m.writeBytes addr v) else .error .outsideMemory

/-! ### The line store -/

/-- The linear index of the line of set `set`, way `w` (R25). -/
def lineIndex (sh : Shape) (set w : Nat) : Nat := set * sh.numWays + w

/-- The ways of a set, way 0 first (R25, R130). -/
def setLines (sh : Shape) (lines : List Line) (set : Nat) : List Line := (lines.drop (set * sh.numWays)).take sh.numWays

/-- `L[set][w]` (R16, R25). -/
def lineAt (sh : Shape) (set w : Nat) (s : State) : Except Fault Line :=
  match s.lines[lineIndex sh set w]? with
  | some l => .ok l
  | none => .error .noSuchLine

/-- `L[set][w] <- l` (R16, R25). -/
def State.setLine (s : State) (sh : Shape) (set w : Nat) (l : Line) : State :=
  { s with lines := s.lines.set (lineIndex sh set w) l }

/-- Memory replaced. -/
def State.setMem (s : State) (m : Memory) : State := { s with mem := m }

/-- What CONFIGURE installs: the geometry registers, `num_blocks` lines in the state of R41, and `configured`
(R221, R225). -/
def State.install (s : State) (bs nb nw : Word) : State :=
  { s with
    configured := true
    geometry := ⟨bs, nb, nw⟩
    lines := List.replicate nb.toNat (Line.empty bs.toNat) }

/-! ### Responses and rejections -/

/-- `respond(status, payload)`: the command ends, the response is returned, the controller is IDLE again
(R16, R93, R152). -/
def State.respond (s : State) (st : Status) (p : Payload) : State :=
  { s with response := some ⟨st, p⟩, fsm := .idle }

/-- A command's work done: the state it leaves and the response it is about to return. -/
structure Reply where
  state : State
  status : Status
  payload : Payload
deriving DecidableEq, Repr

/-- The state after the response has been returned. -/
def Reply.finish (r : Reply) : State := r.state.respond r.status r.payload

/-- `raise E`, the ONE way an exceptional event is taken (R256): the state is as it was, the response carries the error's
code and no payload. There is no handler and no return (R257). -/
def reject (e : Status) (s : State) : Reply := ⟨s, e, .none⟩

/-- The outcome of a step whose command's work is known. -/
def complete (r : Except Fault Reply) : Host.Outcome State Fault Refusal :=
  match r with
  | .ok r => .next r.finish
  | .error f => .fault f

/-! ### Reset -/

/-- The reset event (R280, R294): every piece of the block's state as after reset, Memory again MEM_INIT, dirty lines
lost. The host's moves to come stay the host's; the response is cleared. Log entry 13. -/
def State.applyReset (s : State) : State :=
  { State.reset with mem := ⟨[], s.mem.init⟩, hostMoves := s.hostMoves }

end Sys2Proof.Machine
end

