-- ==== Sys2Proof/Machine/LineStore.lean ====
section
/-! DEFINITION. The lookup functions of the line store (`41_cache_store.md`): the tag comparator, the free-way selector
and the LRU arbiter, each over the ways of one set, way 0 first (R130). -/

namespace Sys2Proof.Machine

/-- `find(s, t)`: the first way that is valid and holds tag `t` (R132). -/
def find (ways : List Line) (t : Word) : Option Nat := ways.findIdx? (fun l => l.valid && l.tag == t)

/-- `first_free(s)`: the first way that is not valid (R134). -/
def firstFree (ways : List Line) : Option Nat := ways.findIdx? (fun l => !l.valid)

/-- The forward scan of R136 from way `w` on: `best` is the way with the smallest timestamp so far, `ts` that
timestamp; an equal timestamp does not replace it. -/
def lruScan (best : Nat) (ts : Word) (w : Nat) (ways : List Line) : Nat :=
  match ways with
  | [] => best
  | l :: ls => if l.timestamp < ts then lruScan w l.timestamp (w + 1) ls else lruScan best ts (w + 1) ls

/-- `lru_victim(s)`: the lowest way with the smallest timestamp (R136). A valid geometry has at least one way; of no
ways the answer is way 0, where there is no line. -/
def lruVictim (ways : List Line) : Nat :=
  match ways with
  | [] => 0
  | l :: ls => lruScan 0 l.timestamp 1 ls

end Sys2Proof.Machine
end

