-- ==== Sys2Proof/Machine/Access.lean ====
section
/-! DEFINITION. The shared access procedure of LOAD and STORE (R154 to R161), and the checks that stand before it
(R62, R253). -/

namespace Sys2Proof.Machine

/-- What the checks of a LOAD or STORE answer. -/
inductive Admission where
  /-- the command is rejected with this error -/
  | rejected (e : Status)
  /-- the access may go on, in this geometry -/
  | admitted (sh : Shape)
deriving DecidableEq, Repr

/-- The checks of LOAD and STORE, in R258's order: `SequenceError` when not configured (R253), then `OutOfBounds`
(R62, R252). -/
def admitAccess (addr : Word) (s : State) : Except Fault Admission :=
  if s.configured then
    match s.geometry.shape? with
    | none => .error .invalidGeometry
    | some sh => if inBounds sh addr then .ok (.admitted sh) else .ok (.rejected .outOfBounds)
  else .ok (.rejected .sequenceError)

/-- Hit: the line's `timestamp <- cycles`, nothing else (R155). -/
def touch (sh : Shape) (set w : Nat) (s : State) : Except Fault State :=
  match lineAt sh set w s with
  | .error f => .error f
  | .ok l => .ok (s.setLine sh set w (l.stamp s.cycles))

/-- `fill(s, w, t, bs)`: the whole block at `bs` into the line, with its tag and stamp (R160). -/
def fill (sh : Shape) (set w : Nat) (t : Word) (bs : Nat) (s : State) : Except Fault State :=
  match lineAt sh set w s with
  | .error f => .error f
  | .ok l =>
    match memRead s.mem bs sh.blockBytes with
    | .error f => .error f
    | .ok d => .ok (s.setLine sh set w (l.filled t s.cycles d))

/-- The write-back of a line: its whole buffer to the block its tag and its set name, then `dirty <- 0` (R158). -/
def writeBack (sh : Shape) (set w : Nat) (s : State) : Except Fault State :=
  match lineAt sh set w s with
  | .error f => .error f
  | .ok l =>
    if l.data.length = sh.blockBytes then
      match memWrite s.mem (blockAddressOf sh l.tag.toNat set) l.data with
      | .error f => .error f
      | .ok m => .ok ((s.setMem m).setLine sh set w l.clearDirty)
    else .error .badLineBuffer

/-- Eviction of a victim: a dirty one is written back, a clean one is not (R158, R159). -/
def evict (sh : Shape) (set w : Nat) (s : State) : Except Fault State :=
  match lineAt sh set w s with
  | .error f => .error f
  | .ok l => if l.dirty then writeBack sh set w s else .ok s

/-- What `access_line` returns: the outcome, the way that now holds the block, and the state. -/
structure Access where
  outcome : HitMiss
  way : Nat
  state : State
deriving DecidableEq, Repr

/-- An access that reached a state, or the fault that stopped it. -/
def Access.of (o : HitMiss) (w : Nat) (r : Except Fault State) : Except Fault Access :=
  match r with
  | .ok s => .ok ⟨o, w, s⟩
  | .error f => .error f

/-- `access_line(s, t, bs)`: hit, miss with a free way, or miss with eviction (R154, R140). -/
def accessLine (sh : Shape) (set : Nat) (t : Word) (bs : Nat) (s : State) : Except Fault Access :=
  match find (setLines sh s.lines set) t with
  | some w => Access.of .hit w (touch sh set w s)
  | none =>
    match firstFree (setLines sh s.lines set) with
    | some w => Access.of .miss w (fill sh set w t bs s)
    | none =>
      match evict sh set (lruVictim (setLines sh s.lines set)) s with
      | .error f => .error f
      | .ok s' =>
        Access.of .miss (lruVictim (setLines sh s.lines set))
          (fill sh set (lruVictim (setLines sh s.lines set)) t bs s')

/-- `unbe32` of the four bytes at an offset of a line's buffer (R163). -/
def readWord (sh : Shape) (set w o : Nat) (s : State) : Except Fault Word :=
  match lineAt sh set w s with
  | .error f => .error f
  | .ok l =>
    match unbe32 (slice l.data o 4) with
    | some v => .ok v
    | none => .error .badLineBuffer

/-- The word write of a STORE into a line's buffer, and `dirty <- 1` (R184, R186). -/
def writeWord (sh : Shape) (set w o : Nat) (v : Word) (s : State) : Except Fault State :=
  match lineAt sh set w s with
  | .error f => .error f
  | .ok l =>
    if o + 4 ≤ l.data.length then .ok (s.setLine sh set w (l.putWord o v).markDirty)
    else .error .badLineBuffer

end Sys2Proof.Machine
end

