-- ==== Sys2Proof/Machine/LoadStore.lean ====
section
/-! DEFINITION. The meanings of LOAD (R153) and STORE (R181). -/

namespace Sys2Proof.Machine

/-- The work of a LOAD that has been admitted: access, `rdata`, account (R153). -/
def loadAdmitted (sh : Shape) (addr : Word) (s : State) : Except Fault Reply :=
  match accessLine sh (setIndex sh addr) (tagReg sh addr) (blockStart sh addr) s with
  | .error f => .error f
  | .ok a =>
    match readWord sh (setIndex sh addr) a.way (wordOffset sh addr) a.state with
    | .error f => .error f
    | .ok rdata => .ok ⟨account a.outcome a.state, a.outcome.status, .word rdata⟩

/-- The work of a STORE that has been admitted: access, word write and `dirty`, account (R181). -/
def storeAdmitted (sh : Shape) (addr value : Word) (s : State) : Except Fault Reply :=
  match accessLine sh (setIndex sh addr) (tagReg sh addr) (blockStart sh addr) s with
  | .error f => .error f
  | .ok a =>
    match writeWord sh (setIndex sh addr) a.way (wordOffset sh addr) value a.state with
    | .error f => .error f
    | .ok s' => .ok ⟨account a.outcome s', a.outcome.status, .word value⟩

/-- The work of LOAD: the checks, then the access (R153). -/
def loadWork (addr : Word) (s : State) : Except Fault Reply :=
  match admitAccess addr s with
  | .error f => .error f
  | .ok (.rejected e) => .ok (reject e s)
  | .ok (.admitted sh) => loadAdmitted sh addr s

/-- The work of STORE: the checks, then the access (R181). -/
def storeWork (addr value : Word) (s : State) : Except Fault Reply :=
  match admitAccess addr s with
  | .error f => .error f
  | .ok (.rejected e) => .ok (reject e s)
  | .ok (.admitted sh) => storeAdmitted sh addr value s

/-- LOAD (R153). -/
def execLoad (addr : Word) (s : State) : Host.Outcome State Fault Refusal := complete (loadWork addr s)

/-- STORE (R181). -/
def execStore (addr value : Word) (s : State) : Host.Outcome State Fault Refusal := complete (storeWork addr value s)

end Sys2Proof.Machine
end

