-- ==== Sys2Proof/Machine/System.lean ====
section
/-! DEFINITION. The meanings of CONFIGURE (R221), STATS (R205), DUMP_MEMORY (R230) and DUMP_CACHE (R235). -/

namespace Sys2Proof.Machine

/-- The work of CONFIGURE (R221): `SequenceError` on a configured block (R227), `ConfigError` for an invalid geometry
(R224), else the geometry and the line store come into being (R225). -/
def configureWork (bs nb nw : Word) (s : State) : Reply :=
  if s.configured then reject .sequenceError s
  else if validGeometry bs nb nw then ⟨s.install bs nb nw, .done, .none⟩
  else reject .configError s

/-- The work of STATS: the three counters, nothing changed (R205). -/
def statsWork (s : State) : Reply := ⟨s, .done, .counters s.hits s.misses s.cycles⟩

/-- The work of DUMP_MEMORY: `OutOfBounds`, else the bytes of Memory, not of the cache (R230, R67). -/
def dumpMemoryWork (addr length : Word) (s : State) : Reply :=
  if dumpInBounds addr length then ⟨s, .done, .bytes (s.mem.readBytes addr.toNat length.toNat)⟩
  else reject .outOfBounds s

/-- The work of DUMP_CACHE: every line in ascending linear index (R235, R236), none before CONFIGURE (R237). -/
def dumpCacheWork (s : State) : Reply := ⟨s, .done, .lines (if s.configured then s.lines else [])⟩

/-- CONFIGURE (R221). -/
def execConfigure (bs nb nw : Word) (s : State) : Host.Outcome State Fault Refusal :=
  complete (.ok (configureWork bs nb nw s))

/-- STATS (R205). -/
def execStats (s : State) : Host.Outcome State Fault Refusal := complete (.ok (statsWork s))

/-- DUMP_MEMORY (R230). -/
def execDumpMemory (addr length : Word) (s : State) : Host.Outcome State Fault Refusal :=
  complete (.ok (dumpMemoryWork addr length s))

/-- DUMP_CACHE (R235). -/
def execDumpCache (s : State) : Host.Outcome State Fault Refusal := complete (.ok (dumpCacheWork s))

end Sys2Proof.Machine
end

