-- ==== Sys2Proof/Syntax.lean ====
section
/-! DEFINITION. The command set (R2, R85): one constructor per row of `spec/opcode_table.json`. -/

namespace Sys2Proof

/-- A command of the core-facing interface with its operands. Every operand is a whole 32-bit unsigned field of the
request word (R95); a field a command ignores (R86) is no operand of it. -/
inductive Instr where
  /-- `configure(block_size_bytes, num_blocks, num_ways)` (R221). -/
  | configure (blockSizeBytes numBlocks numWays : Word)
  /-- `load(addr)` (R153). -/
  | load (addr : Word)
  /-- `store(addr, value)` (R181). -/
  | store (addr value : Word)
  /-- `stats()` (R205). -/
  | stats
  /-- `dump_memory(addr, length)` (R230). -/
  | dumpMemory (addr length : Word)
  /-- `dump_cache()` (R235). -/
  | dumpCache
deriving DecidableEq, Repr

end Sys2Proof
end

