-- ==== Sys2Proof/Machine/Dispatch.lean ====
section
/-! DEFINITION. One arm per command (R85). -/

namespace Sys2Proof.Machine

def exec (i : Instr) (s : State) : Host.Outcome State Fault Refusal :=
  match i with
  | .configure bs nb nw => Sys2Proof.Machine.execConfigure bs nb nw s
  | .load addr => Sys2Proof.Machine.execLoad addr s
  | .store addr value => Sys2Proof.Machine.execStore addr value s
  | .stats => Sys2Proof.Machine.execStats s
  | .dumpMemory addr length => Sys2Proof.Machine.execDumpMemory addr length s
  | .dumpCache => Sys2Proof.Machine.execDumpCache s

end Sys2Proof.Machine
end

