-- ==== Sys2Proof/WellFormed.lean ====
section
/-! DEFINITION. What is well formed. At the level of the command there is nothing to check: every value of every
operand is legal (R88), and the operands' types hold their widths. What can be ill formed is a request word: its `op`
may be one of the reserved values 6 to 15 (R88). -/

namespace Sys2Proof

/-- Every command is well formed: "every value of `a`, `b`, `c` is legal at the encoding level" (R88). -/
def Instr.wellFormed : Instr → Bool
  | .configure _ _ _ => true
  | .load _ => true
  | .store _ _ => true
  | .stats => true
  | .dumpMemory _ _ => true
  | .dumpCache => true

/-- A request word is well formed when its `op` selects a command, that is when `op` is at most 5 (R88, R89). -/
def reqWellFormed (r : Req) : Bool := decide ((r.extractLsb' 96 4).toNat ≤ 5)

end Sys2Proof
end

