-- ==== Sys2Proof/Decode.lean ====
section
/-! DEFINITION. The decoder and the encoder of request words (R84 to R89), the rows of the opcode table as match and
mask (R86), and the textual form of a command (R90). -/

namespace Sys2Proof

/-! ### The fields of a request word (R84) -/

/-- `op = REQ[99:96]` (R84). -/
def opField (r : Req) : BitVec 4 := r.extractLsb' 96 4

/-- `a = REQ[95:64]` (R84). -/
def aField (r : Req) : Word := r.extractLsb' 64 32

/-- `b = REQ[63:32]` (R84). -/
def bField (r : Req) : Word := r.extractLsb' 32 32

/-- `c = REQ[31:0]` (R84). -/
def cField (r : Req) : Word := r.extractLsb' 0 32

/-- A request word put together from its four fields, `op ∥ a ∥ b ∥ c` (R84, R14). -/
def mkReq (op : BitVec 4) (a b c : Word) : Req :=
  BitVec.ofNat 100 (op.toNat * 2 ^ 96 + a.toNat * 2 ^ 64 + b.toNat * 2 ^ 32 + c.toNat)

/-! ### Decoding (R85, R88, R89) -/

/-- Why a request word is no command. -/
inductive DecodeError where
  /-- `op` is 6 to 15, which no command has (R88): the block answers `ILLEGAL_COMMAND` (R254). -/
  | illegalCommand (op : BitVec 4)
deriving DecidableEq, Repr

/-- The decoding procedure, total on every request word (R89): read `op`, take the operands R85 names, ignore the
other fields (R86). -/
def decode (r : Req) : Except DecodeError Instr :=
  match (opField r).toNat with
  | 0 => .ok (.configure (aField r) (bField r) (cField r))
  | 1 => .ok (.load (aField r))
  | 2 => .ok (.store (aField r) (bField r))
  | 3 => .ok .stats
  | 4 => .ok (.dumpMemory (aField r) (bField r))
  | 5 => .ok .dumpCache
  | _ => .error (.illegalCommand (opField r))

/-- The command the decoder reads from a request given as a number, bit 0 being bit 0 of `REQ` (the numbering of
`spec/opcode_table.json`). The bits above `nbits` are 0; bits above bit 99 are no part of a request word and are
dropped. Log entry 10. -/
def decodeTableWord (nbits w : Nat) : Option Instr :=
  match decode (BitVec.ofNat 100 (w % 2 ^ nbits)) with
  | .ok i => some i
  | .error _ => none

/-! ### Encoding (R85) -/

/-- The opcode number of a command (R85). -/
def opcodeOf : Instr → BitVec 4
  | .configure _ _ _ => 0#4
  | .load _ => 1#4
  | .store _ _ => 2#4
  | .stats => 3#4
  | .dumpMemory _ _ => 4#4
  | .dumpCache => 5#4

/-- The request word of a command, with zeros in the fields it ignores (R84 to R86). -/
def encode (i : Instr) : Req :=
  match i with
  | .configure bs nb nw => mkReq (opcodeOf i) bs nb nw
  | .load addr => mkReq (opcodeOf i) addr 0#32 0#32
  | .store addr value => mkReq (opcodeOf i) addr value 0#32
  | .stats => mkReq (opcodeOf i) 0#32 0#32 0#32
  | .dumpMemory addr length => mkReq (opcodeOf i) addr length 0#32
  | .dumpCache => mkReq (opcodeOf i) 0#32 0#32 0#32

/-- The mask of every row of the opcode table: only the `op` field (R86). -/
def rowMask : Req := 0xF000000000000000000000000#100

/-- The match word of a command's row of the opcode table (R86). -/
def rowMatch (i : Instr) : Req :=
  match i with
  | .configure _ _ _ => 0x0000000000000000000000000#100
  | .load _ => 0x1000000000000000000000000#100
  | .store _ _ => 0x2000000000000000000000000#100
  | .stats => 0x3000000000000000000000000#100
  | .dumpMemory _ _ => 0x4000000000000000000000000#100
  | .dumpCache => 0x5000000000000000000000000#100

/-- The bits of a request word that a command reads: `op` and its operands' fields, not the ignored ones (R86). -/
def readMask (i : Instr) : Req :=
  match i with
  | .configure _ _ _ => 0xFFFFFFFFFFFFFFFFFFFFFFFFF#100
  | .load _ => 0xFFFFFFFFF0000000000000000#100
  | .store _ _ => 0xFFFFFFFFFFFFFFFFF00000000#100
  | .stats => 0xF000000000000000000000000#100
  | .dumpMemory _ _ => 0xFFFFFFFFFFFFFFFFF00000000#100
  | .dumpCache => 0xF000000000000000000000000#100

/-! ### The textual form of a command (R90) -/

/-- The value of a hexadecimal digit, either case; also of a decimal digit. -/
def hexDigit? (c : Char) : Option Nat :=
  let n := c.toNat
  if 48 ≤ n ∧ n ≤ 57 then some (n - 48)
  else if 97 ≤ n ∧ n ≤ 102 then some (n - 87)
  else if 65 ≤ n ∧ n ≤ 70 then some (n - 55)
  else none

/-- The value of a digit of the given base, if it is one. -/
def digit? (base : Nat) (c : Char) : Option Nat :=
  match hexDigit? c with
  | some d => if d < base then some d else none
  | none => none

/-- The number a sequence of digits adds on to `acc`. -/
def digitsValue? (base : Nat) (acc : Nat) : List Char → Option Nat
  | [] => some acc
  | c :: cs =>
    match digit? base c with
    | some d => digitsValue? base (acc * base + d) cs
    | none => none

/-- A numeral: `0x` and hexadecimal digits, or decimal digits (R90), at least one digit. -/
def numeral? : List Char → Option Nat
  | '0' :: 'x' :: c :: cs => digitsValue? 16 0 (c :: cs)
  | c :: cs => digitsValue? 10 0 (c :: cs)
  | [] => none

/-- An operand: a numeral below 2^32 (R7, R85), blanks before it skipped. -/
def operand? (t : List Char) : Option Word :=
  match numeral? (t.dropWhile (fun c => c == ' ')) with
  | some n => if n < 2 ^ 32 then some (BitVec.ofNat 32 n) else none
  | none => none

/-- A text cut at its commas. -/
def splitCommas : List Char → List (List Char)
  | [] => [[]]
  | c :: cs =>
    if c == ',' then [] :: splitCommas cs
    else
      match splitCommas cs with
      | p :: ps => (c :: p) :: ps
      | [] => [[c]]

/-- The operands of a comma-separated list, all of them or none. -/
def operands? : List (List Char) → Option (List Word)
  | [] => some []
  | p :: ps =>
    match operand? p, operands? ps with
    | some w, some ws => some (w :: ws)
    | _, _ => none

/-- The command a lower-case name and its operands stand for (R90). -/
def named? (name : List Char) (ops : List Word) : Option Instr :=
  match ops with
  | [] =>
    if name = "stats".toList then some .stats
    else if name = "dump_cache".toList then some .dumpCache
    else none
  | [addr] => if name = "load".toList then some (.load addr) else none
  | [addr, x] =>
    if name = "store".toList then some (.store addr x)
    else if name = "dump_memory".toList then some (.dumpMemory addr x)
    else none
  | [bs, nb, nw] => if name = "configure".toList then some (.configure bs nb nw) else none
  | _ => none

/-- The command a line of text names: `name(operand, …)` (R90). Blanks may stand before an operand, nowhere else.
Log entry 16. -/
def parseCommand (t : List Char) : Option Instr :=
  let name := t.takeWhile (fun c => c != '(')
  match t.dropWhile (fun c => c != '(') with
  | [] => none
  | _ :: rest =>
    if rest.getLast? = some ')' then
      if rest.dropLast = [] then named? name []
      else
        match operands? (splitCommas rest.dropLast) with
        | some ops => named? name ops
        | none => none
    else none

/-- The hexadecimal digit of a value below 16. -/
def hexChar (n : Nat) : Char := Char.ofNat (if n < 10 then 48 + n else 87 + n)

/-- An operand written as `0x` and eight hexadecimal digits (R90). -/
def operandText (w : Word) : List Char :=
  '0' :: 'x' :: [28, 24, 20, 16, 12, 8, 4, 0].map (fun k => hexChar (w.toNat / 2 ^ k % 16))

/-- The textual form of a command (R90). -/
def Instr.text (i : Instr) : List Char :=
  match i with
  | .configure bs nb nw =>
    "configure(".toList ++ operandText bs ++ ", ".toList ++ operandText nb ++ ", ".toList ++ operandText nw ++ [')']
  | .load addr => "load(".toList ++ operandText addr ++ [')']
  | .store addr value => "store(".toList ++ operandText addr ++ ", ".toList ++ operandText value ++ [')']
  | .stats => "stats()".toList
  | .dumpMemory addr length =>
    "dump_memory(".toList ++ operandText addr ++ ", ".toList ++ operandText length ++ [')']
  | .dumpCache => "dump_cache()".toList

end Sys2Proof
end

