-- ==== Sys2Proof/Machine/Fetch.lean ====
section
/-! DEFINITION. Taking the host's next move (`70_reset_and_hazards.md` R280, R281, R291). The block fetches nothing
(R37): the host presents each request word. -/

namespace Sys2Proof.Machine

/-- What the block finds at the start of a step. -/
inductive Fetched where
  /-- no move: the block waits in IDLE (R281) -/
  | wait (s : State)
  /-- a move while a command is in progress (R291) -/
  | busy
  /-- the host applies reset (R280); `s` is the state after it -/
  | reset (s : State)
  /-- a request word whose `op` is reserved (R88) -/
  | illegal (s : State)
  /-- a request word that is the command `i` -/
  | run (i : Instr) (s : State)
deriving DecidableEq, Repr

/-- The host's next move taken from the list, and decoded where it is a command. -/
def fetch (s : State) : Fetched :=
  match s.hostMoves with
  | [] => .wait s
  | m :: rest =>
    if s.fsm = .idle then
      match m with
      | .reset => .reset ({ s with hostMoves := rest } : State).applyReset
      | .command r =>
        match decode r with
        | .ok i => .run i { s with hostMoves := rest }
        | .error _ => .illegal { s with hostMoves := rest }
    else .busy

/-- The host about to present the request word `r`, the block IDLE to receive it. -/
def State.present (s : State) (r : Req) : State :=
  { s with hostMoves := .command r :: s.hostMoves, fsm := .idle }

end Sys2Proof.Machine
end

