-- ==== Sys2Proof/Machine/Step.lean ====
section
/-! DEFINITION. One step: the host's next move, taken whole (R6, R65). -/

namespace Sys2Proof.Machine

/-- A step takes the host's next move: a command runs to completion (R6), a reserved request is rejected with
`ILLEGAL_COMMAND` (R88, R254), reset is applied (R280); with no move the block waits (R281). -/
def step (s : State) : Host.Outcome State Fault Refusal :=
  match fetch s with
  | .wait s' => .next s'
  | .busy => .refused .commandInProgress
  | .reset s' => .next s'
  | .illegal s' => complete (.ok (reject .illegalCommand s'))
  | .run i s' => exec i s'

/-- The host about to present the request whose bits are `w`, numbered as `spec/opcode_table.json` numbers them, the
bits above `nbits` zero. Log entries 1, 10. -/
def State.withFetchWord (s : State) (nbits w : Nat) : State := s.present (BitVec.ofNat 100 (w % 2 ^ nbits))

end Sys2Proof.Machine
end

