-- ==== Sys2Proof/Machine/Layout.lean ====
section
/-! DEFINITION. The packed form of a line (R97), for a reader who wants the line store as bit vectors. The machine holds
lines as records; nothing observable depends on this layout. -/

namespace Sys2Proof.Machine

/-- The bytes of a buffer as one number, byte 0 most significant (R97). -/
def packData (acc : Nat) (d : List Byte) : Nat :=
  match d with
  | [] => acc
  | b :: bs => packData (acc * 256 + b.toNat) bs

/-- A line of `B` data bytes as `66 + 8 * B` bits (R97): `valid`, `dirty`, `tag`, `timestamp`, data. -/
def packLine (B : Nat) (l : Line) : BitVec (66 + 8 * B) :=
  BitVec.ofNat (66 + 8 * B)
    (l.valid.toNat * 2 ^ (65 + 8 * B) + l.dirty.toNat * 2 ^ (64 + 8 * B) + l.tag.toNat * 2 ^ (32 + 8 * B)
      + l.timestamp.toNat * 2 ^ (8 * B) + packData 0 l.data)

/-- Byte `i` of the data part of a packed line of `B` data bytes: byte 0 is the most significant (R97). -/
def packedByte (B : Nat) (n : Nat) (i : Nat) : Byte := BitVec.ofNat 8 (n / 2 ^ (8 * (B - 1 - i)))

/-- The line a packed form holds (R97). -/
def unpackLine (B : Nat) (v : BitVec (66 + 8 * B)) : Line where
  valid := v.getLsbD (65 + 8 * B)
  dirty := v.getLsbD (64 + 8 * B)
  tag := v.extractLsb' (32 + 8 * B) 32
  timestamp := v.extractLsb' (8 * B) 32
  data := (List.range B).map (packedByte B v.toNat)

end Sys2Proof.Machine
end

