-- ==== Sys2Proof/Machine/MissHandler.lean ====
section
/-! DEFINITION. The miss-handler state machine inside a command (R151, R152): one transition at a time, over the same
operations the commands' meanings use. `step` runs each command whole (R6, R36); that the two agree is an obligation. -/

namespace Sys2Proof.Machine

/-- The controller inside a command: the block's state, whose `fsm` is the state register, the command, and what the
controller holds for the rest of the command (the way, the outcome, the response). -/
structure Handler where
  st : State
  instr : Instr
  way : Nat
  outcome : HitMiss
  status : Status
  payload : Payload
deriving DecidableEq, Repr

/-- A command accepted: `IDLE -> CHECK` (R152). -/
def Handler.start (i : Instr) (s : State) : Handler := ⟨{ s with fsm := .check }, i, 0, .miss, .done, .none⟩

/-- The state register moves to `q`. -/
def Handler.goto (h : Handler) (q : Fsm) : Handler := { h with st := { h.st with fsm := q } }

/-- The state the operation `r` reached, and the state register at `q`. -/
def Handler.after (h : Handler) (r : Except Fault State) (q : Fsm) : Except Fault Handler :=
  match r with
  | .error f => .error f
  | .ok s => .ok (({ h with st := s } : Handler).goto q)

/-- The address of a LOAD or STORE; the other commands have none. -/
def accessAddr? (i : Instr) : Option Word :=
  match i with
  | .configure _ _ _ => none
  | .load addr => some addr
  | .store addr _ => some addr
  | .stats => none
  | .dumpMemory _ _ => none
  | .dumpCache => none

/-- The value a STORE writes; the other commands write none. -/
def storeValue? (i : Instr) : Option Word :=
  match i with
  | .configure _ _ _ => none
  | .load _ => none
  | .store _ value => some value
  | .stats => none
  | .dumpMemory _ _ => none
  | .dumpCache => none

/-- Where a LOAD or STORE goes once the line holds the block: a STORE to WRITE_WORD, a LOAD to ACCOUNT (R152). -/
def afterAccess (i : Instr) : Fsm :=
  match storeValue? i with
  | some _ => .writeWord
  | none => .account

/-- A command's work done, the state register at RESPOND (R152). -/
def Handler.answered (h : Handler) (r : Reply) : Handler :=
  ({ h with st := r.state, status := r.status, payload := r.payload } : Handler).goto .respond

/-- CHECK of a LOAD or STORE: an error goes to RESPOND with nothing written, else to LOOKUP (R152). -/
def Handler.checkAccess (h : Handler) (addr : Word) : Except Fault Handler :=
  match admitAccess addr h.st with
  | .error f => .error f
  | .ok (.rejected e) => .ok (h.answered (reject e h.st))
  | .ok (.admitted _) => .ok (h.goto .lookup)

/-- CHECK: LOAD and STORE are checked; the other four commands do their work here (R152). -/
def Handler.check (h : Handler) : Except Fault Handler :=
  match h.instr with
  | .configure bs nb nw => .ok (h.answered (configureWork bs nb nw h.st))
  | .load addr => h.checkAccess addr
  | .store addr _ => h.checkAccess addr
  | .stats => .ok (h.answered (statsWork h.st))
  | .dumpMemory addr length => .ok (h.answered (dumpMemoryWork addr length h.st))
  | .dumpCache => .ok (h.answered (dumpCacheWork h.st))

/-- LOOKUP: hit, miss with a free way, or miss with eviction (R152, R140). -/
def Handler.lookup (h : Handler) (sh : Shape) (addr : Word) : Handler :=
  match find (setLines sh h.st.lines (setIndex sh addr)) (tagReg sh addr) with
  | some w => ({ h with way := w, outcome := .hit } : Handler).goto .hitUpdate
  | none =>
    match firstFree (setLines sh h.st.lines (setIndex sh addr)) with
    | some w => ({ h with way := w, outcome := .miss } : Handler).goto .fill
    | none => ({ h with outcome := .miss } : Handler).goto .victim

/-- VICTIM: the LRU way; a dirty victim goes to WRITEBACK, a clean one to FILL (R152). -/
def Handler.victim (h : Handler) (sh : Shape) (addr : Word) : Except Fault Handler :=
  match lineAt sh (setIndex sh addr) (lruVictim (setLines sh h.st.lines (setIndex sh addr))) h.st with
  | .error f => .error f
  | .ok l =>
    .ok (({ h with way := lruVictim (setLines sh h.st.lines (setIndex sh addr)) } : Handler).goto
      (if l.dirty then .writeback else .fill))

/-- WRITE_WORD: the four bytes and `dirty` (R151); `rdata` is the value (R188). -/
def Handler.writeWord (h : Handler) (sh : Shape) (addr : Word) : Except Fault Handler :=
  match storeValue? h.instr with
  | none => .ok (h.goto .account)
  | some v =>
    ({ h with payload := .word v } : Handler).after
      (Machine.writeWord sh (setIndex sh addr) h.way (wordOffset sh addr) v h.st) .account

/-- The payload of a LOAD or STORE at ACCOUNT: a LOAD reads its word from the line (R163), a STORE has it. -/
def Handler.rdata (h : Handler) (sh : Shape) (addr : Word) : Except Fault Payload :=
  match storeValue? h.instr with
  | some _ => .ok h.payload
  | none =>
    match readWord sh (setIndex sh addr) h.way (wordOffset sh addr) h.st with
    | .error f => .error f
    | .ok v => .ok (.word v)

/-- ACCOUNT: the counters advance, and the response is the outcome with `rdata` (R151, R200). -/
def Handler.account (h : Handler) (sh : Shape) (addr : Word) : Except Fault Handler :=
  match h.rdata sh addr with
  | .error f => .error f
  | .ok p => .ok (h.answered ⟨Machine.account h.outcome h.st, h.outcome.status, p⟩)

/-- The transitions that only a LOAD or STORE makes, between CHECK and RESPOND (R152). -/
def Handler.access (h : Handler) (sh : Shape) (addr : Word) : Except Fault Handler :=
  match h.st.fsm with
  | .lookup => .ok (h.lookup sh addr)
  | .hitUpdate => h.after (touch sh (setIndex sh addr) h.way h.st) (afterAccess h.instr)
  | .victim => h.victim sh addr
  | .writeback => h.after (writeBack sh (setIndex sh addr) h.way h.st) .fill
  | .fill =>
    h.after (Machine.fill sh (setIndex sh addr) h.way (tagReg sh addr) (blockStart sh addr) h.st)
      (afterAccess h.instr)
  | .writeWord => h.writeWord sh addr
  | .account => h.account sh addr
  | .idle => .ok h
  | .check => .ok h
  | .respond => .ok h

/-- The miss-handler states, entered only by a LOAD or STORE of a configured block. -/
def Handler.miss (h : Handler) : Except Fault Handler :=
  match accessAddr? h.instr, h.st.geometry.shape? with
  | some addr, some sh => h.access sh addr
  | _, _ => .error .invalidGeometry

/-- One transition of the state machine (R152). In IDLE nothing is in progress. -/
def Handler.tick (h : Handler) : Except Fault Handler :=
  match h.st.fsm with
  | .idle => .ok h
  | .check => h.check
  | .respond => .ok { h with st := h.st.respond h.status h.payload }
  | .lookup => h.miss
  | .hitUpdate => h.miss
  | .victim => h.miss
  | .writeback => h.miss
  | .fill => h.miss
  | .writeWord => h.miss
  | .account => h.miss

/-- `n` transitions. -/
def Handler.run (n : Nat) (h : Handler) : Except Fault Handler :=
  match n with
  | 0 => .ok h
  | k + 1 =>
    match h.tick with
    | .error f => .error f
    | .ok h' => h'.run k

/-- The edges of R152's graph, and IDLE staying IDLE. -/
def fsmEdge (i : Instr) (p q : Fsm) : Bool :=
  match p, q with
  | .idle, .idle => true
  | .check, .respond => true
  | .check, .lookup => (accessAddr? i).isSome
  | .lookup, .hitUpdate => true
  | .lookup, .fill => true
  | .lookup, .victim => true
  | .victim, .writeback => true
  | .victim, .fill => true
  | .writeback, .fill => true
  | .hitUpdate, .writeWord => (storeValue? i).isSome
  | .hitUpdate, .account => !(storeValue? i).isSome
  | .fill, .writeWord => (storeValue? i).isSome
  | .fill, .account => !(storeValue? i).isSome
  | .writeWord, .account => true
  | .account, .respond => true
  | .respond, .idle => true
  | _, _ => false

end Sys2Proof.Machine
end

