-- ==== Sys2Proof/Safety.lean ====
section
/-! DEFINITION. What counts as a safe run, in the terms the claims use: the invariants of `70_reset_and_hazards.md`
section 4, the coherent view (R66), and names for what an access does. -/

namespace Sys2Proof.Safety

open Sys2Proof.Machine

/-! ### The invariants -/

/-- A line buffer holds one block, the stored tag has no bits above `tag_bits` (R28, R34), and a line nothing has
filled is as CONFIGURE created it (R41, R42). -/
abbrev LineOk (sh : Shape) (l : Line) : Prop :=
  l.data.length = sh.blockBytes ∧ l.tag.toNat < 2 ^ sh.tagBits ∧ (l.valid = false → l = Line.empty sh.blockBytes)

/-- The line store has `num_blocks = num_sets * num_ways` lines (R23), each in order. -/
abbrev LinesOk (sh : Shape) (s : State) : Prop :=
  s.lines.length = sh.numSets * sh.numWays ∧ ∀ l ∈ s.lines, LineOk sh l

/-- The valid ways of every set come first (R302, R135). -/
abbrev ValidWaysFirst (sh : Shape) (s : State) : Prop :=
  ∀ set < sh.numSets, (setLines sh s.lines set).Pairwise (fun a b => b.valid = true → a.valid = true)

/-- No two valid lines of a set share a tag (R303). -/
abbrev TagsUnique (sh : Shape) (s : State) : Prop :=
  ∀ set < sh.numSets, (setLines sh s.lines set).Pairwise (fun a b => a.valid = true → b.valid = true → a.tag ≠ b.tag)

/-- The block of every valid line lies inside Memory (R305). -/
abbrev BlocksInside (sh : Shape) (s : State) : Prop :=
  ∀ set < sh.numSets, ∀ l ∈ setLines sh s.lines set, l.valid = true →
    blockAddressOf sh l.tag.toNat set + sh.blockBytes ≤ Config.memSize

/-- A valid line that is not dirty equals its block of Memory (R304). -/
abbrev CleanMatchesMemory (sh : Shape) (s : State) : Prop :=
  ∀ set < sh.numSets, ∀ l ∈ setLines sh s.lines set, l.valid = true → l.dirty = false →
    l.data = s.mem.readBytes (blockAddressOf sh l.tag.toNat set) sh.blockBytes

/-- What holds of the lines of a configured block, beside their form and the clock (R302 to R305). -/
structure CacheOk (sh : Shape) (s : State) : Prop where
  first : ValidWaysFirst sh s
  unique : TagsUnique sh s
  inside : BlocksInside sh s
  clean : CleanMatchesMemory sh s

/-- The form of the state: no command in progress (R36), Memory in canonical form, no lines before CONFIGURE (R23), and
afterwards a valid geometry with its lines in order (R11, R23, R28, R34). -/
structure Formed (s : State) : Prop where
  idle : s.fsm = .idle
  mem : s.mem.wf
  unconfigured : s.configured = false → s.lines = []
  configured : s.configured = true → ∃ sh, s.geometry.shape? = some sh ∧ LinesOk sh s

/-- The invariant of the machine: the form of the state, and the invariants of the lines of a configured block
(R302 to R305). -/
structure Inv (s : State) : Prop where
  formed : Formed s
  cache : ∀ sh, s.configured = true → s.geometry.shape? = some sh → CacheOk sh s

/-- Valid lines carry different timestamps, each below `cycles` (R301). -/
abbrev StampsFresh (s : State) : Prop :=
  s.lines.Pairwise (fun a b => a.valid = true → b.valid = true → a.timestamp ≠ b.timestamp)
    ∧ ∀ l ∈ s.lines, l.valid = true → l.timestamp < s.cycles

/-- The counter law: `cycles = hits * CYCLES_HIT + misses * CYCLES_MISS` modulo 2^32 (R203). -/
abbrev CounterLaw (s : State) : Prop := s.cycles = s.hits * Config.cyclesHit + s.misses * Config.cyclesMiss

/-! ### What an access sees -/

/-- The ways of the set an address names. -/
def waysOf (sh : Shape) (s : State) (addr : Word) : List Line := setLines sh s.lines (setIndex sh addr)

/-- The way an access of `addr` uses: the matching one, else the first free one, else the LRU victim (R140). -/
def accessWay (sh : Shape) (s : State) (addr : Word) : Nat :=
  match find (waysOf sh s addr) (tagReg sh addr) with
  | some w => w
  | none =>
    match firstFree (waysOf sh s addr) with
    | some w => w
    | none => lruVictim (waysOf sh s addr)

/-- The linear index of the line an access of `addr` uses (R25). -/
def accessIndex (sh : Shape) (s : State) (addr : Word) : Nat := lineIndex sh (setIndex sh addr) (accessWay sh s addr)

/-- Whether an access of `addr` is a hit (R140). -/
def accessOutcome (sh : Shape) (s : State) (addr : Word) : HitMiss :=
  match find (waysOf sh s addr) (tagReg sh addr) with
  | some _ => .hit
  | none => .miss

/-- The address of the block an access of `addr` writes back, if it evicts a dirty line (R158). -/
def writtenBack? (sh : Shape) (s : State) (addr : Word) : Option Nat :=
  match find (waysOf sh s addr) (tagReg sh addr), firstFree (waysOf sh s addr) with
  | none, none =>
    match s.lines[accessIndex sh s addr]? with
    | some l => if l.dirty then some (blockAddressOf sh l.tag.toNat (setIndex sh addr)) else none
    | none => none
  | _, _ => none

/-- The coherent view of the byte at a request address (R66): the byte of the line that holds its block, else the byte
of Memory. -/
def view (sh : Shape) (s : State) (a : Word) : Option Byte :=
  match find (waysOf sh s a) (tagReg sh a) with
  | some w =>
    match s.lines[lineIndex sh (setIndex sh a) w]? with
    | some l => l.data[offsetOf sh a]?
    | none => none
  | none => some (s.mem.read a.toNat)

/-- A request address with its two low bits cleared, plus `k`: byte `k` of the word that `addr` accesses (R55). -/
def wordByte (addr : Word) (k : Nat) : Word := BitVec.ofNat 32 (addr.toNat - addr.toNat % 4 + k)

/-- The response of a state, if it reports an outcome of LOAD or STORE and not an error. -/
def answered (o : HitMiss) (rdata : Word) : Option Response := some ⟨o.status, .word rdata⟩

/-- An outcome that is a next state. -/
def Completes (o : Host.Outcome State Fault Refusal) : Prop := ∃ t, o = .next t

end Sys2Proof.Safety
end

