-- ==== Sys2Proof/Certificates/Slice0/Obligations.lean ====
section
/-! DEFINITION. The statements for the provers, one `def Obligations.<Name> : Prop` each; OBLIGATIONS.json lists them. -/

open Sys2Proof Sys2Proof.Machine Sys2Proof.Safety

/-! ### Request words (30_encoding.md) -/

/-- The request words that `95_test_vectors.md` B9 writes out decode to the commands they stand for. -/
def Obligations.WrittenRequestWordsDecode : Prop :=
  decode 0x0000000100000001000000002#100 = .ok (.configure 16#32 16#32 2#32)
    ∧ decode 0x1000000000000000000000000#100 = .ok (.load 0#32)
    ∧ decode 0x10000012C0000000000000000#100 = .ok (.load 0x12c#32)
    ∧ decode 0x10000012CFFFFFFFF12345678#100 = .ok (.load 0x12c#32)
    ∧ decode 0x200000000DEADBEEF00000000#100 = .ok (.store 0#32 0xdeadbeef#32)
    ∧ decode 0x3000000000000000000000000#100 = .ok .stats
    ∧ decode 0x4000000200000001000000000#100 = .ok (.dumpMemory 0x20#32 16#32)
    ∧ decode 0x5000000000000000000000000#100 = .ok .dumpCache
    ∧ decode 0x6000000000000000000000000#100 = .error (.illegalCommand 6#4)
    ∧ decode 0xF00000000FFFFFFFF00000000#100 = .error (.illegalCommand 15#4)

/-- Decoding the request word of any command gives the command back, every operand at every value (R85). -/
def Obligations.DecodeOfEncode : Prop := ∀ i : Instr, i.wellFormed = true → decode (encode i) = .ok i

/-- The decoding procedure of R89 on every request word `r`, read as a number: `op` is its top four bits, the operands
are the fields that R84 and R85 name, and the remaining ten opcodes are reserved. -/
def Obligations.DecodingProcedure : Prop :=
  ∀ r : Req,
    let op := r.toNat / 2 ^ 96
    let a := BitVec.ofNat 32 (r.toNat / 2 ^ 64)
    let b := BitVec.ofNat 32 (r.toNat / 2 ^ 32)
    let c := BitVec.ofNat 32 r.toNat
    (op = 0 → decode r = .ok (.configure a b c))
      ∧ (op = 1 → decode r = .ok (.load a))
      ∧ (op = 2 → decode r = .ok (.store a b))
      ∧ (op = 3 → decode r = .ok .stats)
      ∧ (op = 4 → decode r = .ok (.dumpMemory a b))
      ∧ (op = 5 → decode r = .ok .dumpCache)
      ∧ (5 < op → decode r = .error (.illegalCommand (BitVec.ofNat 4 op)))

/-- R86: an ignored field changes nothing (two words that agree on the fields a command reads are the same command),
and a word is a row's command exactly when it matches the row under the mask of the `op` field. -/
def Obligations.IgnoredFieldsAreMaskedOut : Prop :=
  (∀ (r r' : Req) (i : Instr), decode r = .ok i → r &&& readMask i = r' &&& readMask i → decode r' = .ok i)
    ∧ (∀ (r : Req) (i : Instr), decode r = .ok i → r &&& rowMask = rowMatch i)
    ∧ (∀ (r : Req) (i : Instr), r &&& rowMask = rowMatch i → ∃ j, decode r = .ok j ∧ rowMatch j = rowMatch i)

/-- The textual form of every command (R90) parses to that command. That operands are written as eight hexadecimal
digits is the model's choice (log entry 16). -/
def Obligations.TextOfCommandParses : Prop := ∀ i : Instr, parseCommand i.text = some i

/-- Packing a line (R97) loses nothing: the packed form unpacks to the line. The layout is the spec's offer; the
machine's state does not use it (log entry 17). -/
def Obligations.PackedLineUnpacks : Prop :=
  ∀ (B : Nat) (l : Line), l.data.length = B → unpackLine B (packLine B l) = l

/-! ### A step -/

/-- A step with a request word at the head of the host's moves runs the command it decodes to: the step is `exec` of
that command at the state with the move taken (log entry 1). -/
def Obligations.StepRunsDecodedCommand : Prop :=
  ∀ (s : State) (r : Req) (rest : List HostMove) (i : Instr),
    s.fsm = .idle → s.hostMoves = .command r :: rest → decode r = .ok i →
      step s = exec i { s with hostMoves := rest }

/-- R254: a request with `op` 6 to 15 is answered `ILLEGAL_COMMAND`, code `0xB`, with no payload, and nothing else of
the block changes. -/
def Obligations.StepRejectsReservedOpcode : Prop :=
  ∀ (s : State) (r : Req) (rest : List HostMove),
    s.fsm = .idle → s.hostMoves = .command r :: rest → 5 < r.toNat / 2 ^ 96 →
      step s = .next { s with hostMoves := rest, response := some ⟨.illegalCommand, .none⟩, fsm := .idle }
        ∧ Status.illegalCommand.code = 0xB#4

/-- With no move of the host the block waits, unchanged (log entry 12); a move while a command is in progress has no
meaning and the model refuses it by name (log entry 7). -/
def Obligations.StepWithoutCommand : Prop :=
  (∀ s : State, s.hostMoves = [] → step s = .next s)
    ∧ (∀ s : State, s.hostMoves ≠ [] → s.fsm ≠ .idle → step s = .refused .commandInProgress)

/-- Reset between commands: not configured, no lines, counters 0, `fsm` IDLE, every byte of Memory its byte of
MEM_INIT; dirty lines are lost. The geometry registers' zeros and the cleared response are the model's choice (log
entries 4, 13). -/
def Obligations.StepAppliesReset : Prop :=
  ∀ (s : State) (rest : List HostMove), s.fsm = .idle → s.hostMoves = .reset :: rest →
    ∃ t, step s = .next t ∧ t.configured = false ∧ t.geometry = ⟨0#32, 0#32, 0#32⟩ ∧ t.lines = [] ∧ t.cycles = 0#32
      ∧ t.hits = 0#32 ∧ t.misses = 0#32 ∧ t.fsm = .idle ∧ t.mem.init = s.mem.init
      ∧ (∀ a, t.mem.read a = s.mem.init.getD a 0#8) ∧ t.hostMoves = rest ∧ t.response = none

/-- The block right after reset: every value of the reset table. The empty moves and response and the geometry's zeros
are the model's choice (log entries 1, 2, 4). -/
def Obligations.ResetState : Prop :=
  State.reset.configured = false ∧ State.reset.geometry = ⟨0#32, 0#32, 0#32⟩ ∧ State.reset.lines = []
    ∧ State.reset.cycles = 0#32 ∧ State.reset.hits = 0#32 ∧ State.reset.misses = 0#32 ∧ State.reset.fsm = .idle
    ∧ (∀ a, State.reset.mem.read a = Config.memInit.getD a 0#8)
    ∧ State.reset.hostMoves = [] ∧ State.reset.response = none

/-! ### Geometry and addresses (40_address_decomposer.md, 45_configure_and_diagnostics.md) -/

/-- R110: `log2` of `2^k` is `k`, and no other number has a logarithm. -/
def Obligations.LogarithmOnlyOfPowersOfTwo : Prop :=
  (∀ k : Nat, log2? (2 ^ k) = some k) ∧ (∀ n : Nat, (∀ k, n ≠ 2 ^ k) → log2? n = none)

/-- R224 and R222: the seven conditions of a valid geometry, and no other. -/
def Obligations.ValidGeometryConditions : Prop :=
  ∀ bs nb nw : Word,
    validGeometry bs nb nw = true
      ↔ nw.toNat ≠ 0
        ∧ nb.toNat % nw.toNat = 0
        ∧ (∃ x y, bs.toNat = 2 ^ x ∧ nb.toNat / nw.toNat = 2 ^ y ∧ x + y ≤ 32)
        ∧ 4 ≤ bs.toNat
        ∧ (∀ m, Config.maxBlockBytes = some m → bs.toNat ≤ m)
        ∧ (∀ m, Config.maxNumBlocks = some m → nb.toNat ≤ m)

/-- R111 to R113: in a valid geometry (and in no other) the derived quantities exist; `offset_bits` and `index_bits` are
the logarithms of the block size and of `num_sets = num_blocks / num_ways`, in their ranges, and `tag_bits` is the rest
of the 32 bits. -/
def Obligations.DerivedFieldWidths : Prop :=
  ∀ g : Geometry,
    (validGeometry g.blockSizeBytes g.numBlocks g.numWays = true ↔ ∃ sh, g.shape? = some sh)
      ∧ ∀ sh, g.shape? = some sh →
        sh.blockBytes = g.blockSizeBytes.toNat ∧ sh.numWays = g.numWays.toNat
          ∧ sh.numSets = g.numBlocks.toNat / g.numWays.toNat ∧ sh.numSets * sh.numWays = g.numBlocks.toNat
          ∧ log2? g.blockSizeBytes.toNat = some sh.offsetBits ∧ 2 ≤ sh.offsetBits ∧ sh.offsetBits ≤ 31
          ∧ log2? sh.numSets = some sh.indexBits ∧ sh.indexBits ≤ 30
          ∧ sh.tagBits + sh.indexBits + sh.offsetBits = 32 ∧ sh.tagBits ≤ 30

/-- R80: the three fields of an address are its bit fields, from the most significant end tag, set index, block
offset. -/
def Obligations.AddressFieldsAreBitFields : Prop :=
  ∀ (g : Geometry) (sh : Shape) (addr : Word), g.shape? = some sh →
    offsetOf sh addr = (addr.extractLsb' 0 sh.offsetBits).toNat
      ∧ setIndex sh addr = (addr.extractLsb' sh.offsetBits sh.indexBits).toNat
      ∧ tagOf sh addr = (addr.extractLsb' (sh.offsetBits + sh.indexBits) sh.tagBits).toNat
      ∧ (tagReg sh addr).toNat = tagOf sh addr

/-- R118: the block start is the multiple of the block size at or below the address, the block number shifted back. -/
def Obligations.BlockStartOfAddress : Prop :=
  ∀ (g : Geometry) (sh : Shape) (addr : Word), g.shape? = some sh →
    blockStart sh addr = addr.toNat - addr.toNat % sh.blockBytes
      ∧ sh.blockBytes ∣ blockStart sh addr ∧ blockStart sh addr ≤ addr.toNat
      ∧ addr.toNat < blockStart sh addr + sh.blockBytes
      ∧ blockStart sh addr = blockNumber sh addr <<< sh.offsetBits

/-- An address is recomposed from its three fields, and the block address rebuilt from its tag and set is the start of
its block, below 2^32 (R121, R122's bound, R123; inferences of the spec). -/
def Obligations.AddressRecomposes : Prop :=
  ∀ (g : Geometry) (sh : Shape) (addr : Word), g.shape? = some sh →
    addr.toNat = tagOf sh addr * 2 ^ (sh.indexBits + sh.offsetBits) + setIndex sh addr * 2 ^ sh.offsetBits
        + offsetOf sh addr
      ∧ blockAddressOf sh (tagOf sh addr) (setIndex sh addr) = blockStart sh addr
      ∧ ∀ t st, t < 2 ^ sh.tagBits → st < sh.numSets →
          blockAddressOf sh t st = t * sh.numSets * sh.blockBytes + st * sh.blockBytes
            ∧ blockAddressOf sh t st + sh.blockBytes ≤ 2 ^ 32

/-- R55: no alignment is required. LOAD and STORE of an address are those of its aligned word in every state, the
aligned word never crosses a block, and blocks are aligned to their size. -/
def Obligations.LowAddressBitsIgnored : Prop :=
  (∀ (s : State) (addr value : Word),
      exec (.load addr) s = exec (.load (wordByte addr 0)) s
        ∧ exec (.store addr value) s = exec (.store (wordByte addr 0) value) s)
    ∧ ∀ (g : Geometry) (sh : Shape) (addr : Word), g.shape? = some sh →
        wordOffset sh addr % 4 = 0 ∧ wordOffset sh addr + 4 ≤ sh.blockBytes
          ∧ blockStart sh addr + wordOffset sh addr = addr.toNat - addr.toNat % 4
          ∧ blockStart sh addr % sh.blockBytes = 0

/-- R15: `be32` is the four bytes of a word, most significant first; `unbe32` is the number they write; a slice of a
buffer is its bytes from the offset on, as many as asked for. -/
def Obligations.WordsAreBigEndian : Prop :=
  (∀ v : Word, be32 v = [BitVec.ofNat 8 (v.toNat / 2 ^ 24), BitVec.ofNat 8 (v.toNat / 2 ^ 16),
      BitVec.ofNat 8 (v.toNat / 2 ^ 8), BitVec.ofNat 8 v.toNat])
    ∧ (∀ b0 b1 b2 b3 : Byte, ∃ v, unbe32 [b0, b1, b2, b3] = some v
        ∧ v.toNat = b0.toNat * 2 ^ 24 + b1.toNat * 2 ^ 16 + b2.toNat * 2 ^ 8 + b3.toNat)
    ∧ (∀ v : Word, unbe32 (be32 v) = some v)
    ∧ (∀ (buf : List Byte) (o n : Nat), o + n ≤ buf.length →
        (slice buf o n).length = n ∧ ∀ i < n, (slice buf o n)[i]? = buf[o + i]?)

/-! ### The line store's lookups (41_cache_store.md) -/

/-- R132: `find` answers the lowest way that is valid and holds exactly the tag, and nothing if there is none. -/
def Obligations.FindAnswersLowestMatch : Prop :=
  ∀ (ways : List Line) (t : Word),
    (∀ w, find ways t = some w
        ↔ (∃ l, ways[w]? = some l ∧ l.valid = true ∧ l.tag = t)
          ∧ ∀ (j : Nat) (l : Line), j < w → ways[j]? = some l → ¬(l.valid = true ∧ l.tag = t))
      ∧ (find ways t = none ↔ ∀ l ∈ ways, ¬(l.valid = true ∧ l.tag = t))

/-- R134: `first_free` answers the lowest way that is not valid, and nothing if every way is valid. -/
def Obligations.FirstFreeAnswersLowestInvalid : Prop :=
  ∀ ways : List Line,
    (∀ w, firstFree ways = some w
        ↔ (∃ l, ways[w]? = some l ∧ l.valid = false)
          ∧ ∀ (j : Nat) (l : Line), j < w → ways[j]? = some l → l.valid = true)
      ∧ (firstFree ways = none ↔ ∀ l ∈ ways, l.valid = true)

/-- R136: `lru_victim` answers a way with the numerically smallest timestamp, the lowest of those, and looks at nothing
but the timestamps. -/
def Obligations.LruVictimHasSmallestTimestamp : Prop :=
  (∀ ways : List Line, ways ≠ [] →
      ∃ l, ways[lruVictim ways]? = some l
        ∧ ∀ (j : Nat) (l' : Line), ways[j]? = some l' →
            l.timestamp.toNat ≤ l'.timestamp.toNat
              ∧ (j < lruVictim ways → l.timestamp.toNat < l'.timestamp.toNat))
    ∧ ∀ ways ways' : List Line,
        ways.map (fun l => l.timestamp) = ways'.map (fun l => l.timestamp) → lruVictim ways = lruVictim ways'

/-- R140: an access is a hit on the matching way, or a miss that takes the first free way, or a miss that takes the LRU
victim; exactly one of the three. -/
def Obligations.AccessTakesOneOfThreePaths : Prop :=
  ∀ (sh : Shape) (st bs : Nat) (t : Word) (s : State) (a : Access), accessLine sh st t bs s = .ok a →
    (∀ w, find (setLines sh s.lines st) t = some w → a.outcome = .hit ∧ a.way = w)
      ∧ (∀ w, find (setLines sh s.lines st) t = none → firstFree (setLines sh s.lines st) = some w →
          a.outcome = .miss ∧ a.way = w)
      ∧ (find (setLines sh s.lines st) t = none → firstFree (setLines sh s.lines st) = none →
          a.outcome = .miss ∧ a.way = lruVictim (setLines sh s.lines st))

/-! ### CONFIGURE (45_configure_and_diagnostics.md) -/

/-- What CONFIGURE does in every case; it completes in all three. On a configured block it is `SequenceError` whatever
its operands (R227); on an unconfigured one an invalid geometry is `ConfigError`, and a valid one is installed with
`num_blocks` fresh lines (R221, R225). -/
def Obligations.ConfigureOutcomes : Prop :=
  ∀ (s : State) (bs nb nw : Word),
    (s.configured = true →
      exec (.configure bs nb nw) s = .next { s with response := some ⟨.sequenceError, .none⟩, fsm := .idle })
      ∧ (s.configured = false → validGeometry bs nb nw = false →
        exec (.configure bs nb nw) s = .next { s with response := some ⟨.configError, .none⟩, fsm := .idle })
      ∧ (s.configured = false → validGeometry bs nb nw = true →
        exec (.configure bs nb nw) s = .next
          { s with
            configured := true
            geometry := ⟨bs, nb, nw⟩
            lines := List.replicate nb.toNat ⟨false, false, 0#32, 0#32, List.replicate bs.toNat 0#8⟩
            response := some ⟨.done, .none⟩
            fsm := .idle })

/-! ### LOAD (42_load_and_miss_handler.md) -/

/-- R155: a LOAD that hits completes; it stamps the matching line with `cycles` and changes no other field of it, no
other line and no byte of Memory; `rdata` is the aligned word of the buffer, and the accounting step counts a hit. -/
def Obligations.LoadHitCompletes : Prop :=
  ∀ (s : State) (sh : Shape) (addr : Word) (w : Nat),
    Formed s → s.configured = true → s.geometry.shape? = some sh → inBounds sh addr = true →
      find (waysOf sh s addr) (tagReg sh addr) = some w →
        ∃ l v, s.lines[lineIndex sh (setIndex sh addr) w]? = some l
          ∧ unbe32 (slice l.data (wordOffset sh addr) 4) = some v
          ∧ exec (.load addr) s = .next
              { s with
                lines := s.lines.set (lineIndex sh (setIndex sh addr) w) { l with timestamp := s.cycles }
                hits := s.hits + 1#32
                cycles := s.cycles + 1#32
                response := some ⟨.hit, .word v⟩
                fsm := .idle }

/-- R156: a LOAD that misses with a free way completes; the first free way becomes valid with the tag, the stamp and the
whole block copied from Memory, its `dirty` as it was; nothing is written back. -/
def Obligations.LoadMissTakesFreeWay : Prop :=
  ∀ (s : State) (sh : Shape) (addr : Word) (w : Nat),
    Formed s → s.configured = true → s.geometry.shape? = some sh → inBounds sh addr = true →
      find (waysOf sh s addr) (tagReg sh addr) = none → firstFree (waysOf sh s addr) = some w →
        ∃ l v, s.lines[lineIndex sh (setIndex sh addr) w]? = some l ∧ l.dirty = false
          ∧ unbe32 (slice (s.mem.readBytes (blockStart sh addr) sh.blockBytes) (wordOffset sh addr) 4) = some v
          ∧ exec (.load addr) s = .next
              { s with
                lines := s.lines.set (lineIndex sh (setIndex sh addr) w)
                  ⟨true, l.dirty, tagReg sh addr, s.cycles, s.mem.readBytes (blockStart sh addr) sh.blockBytes⟩
                misses := s.misses + 1#32
                cycles := s.cycles + 100#32
                response := some ⟨.miss, .word v⟩
                fsm := .idle }

/-- A LOAD that misses in a full set whose LRU victim is clean completes; the victim takes the new block and Memory is
not written (R157, R159, R160). -/
def Obligations.LoadMissReplacesCleanVictim : Prop :=
  ∀ (s : State) (sh : Shape) (addr : Word) (l : Line),
    Formed s → s.configured = true → s.geometry.shape? = some sh → inBounds sh addr = true →
      find (waysOf sh s addr) (tagReg sh addr) = none → firstFree (waysOf sh s addr) = none →
        (waysOf sh s addr)[lruVictim (waysOf sh s addr)]? = some l → l.dirty = false →
          ∃ v, unbe32 (slice (s.mem.readBytes (blockStart sh addr) sh.blockBytes) (wordOffset sh addr) 4) = some v
            ∧ exec (.load addr) s = .next
                { s with
                  lines := s.lines.set (lineIndex sh (setIndex sh addr) (lruVictim (waysOf sh s addr)))
                    ⟨true, false, tagReg sh addr, s.cycles, s.mem.readBytes (blockStart sh addr) sh.blockBytes⟩
                  misses := s.misses + 1#32
                  cycles := s.cycles + 100#32
                  response := some ⟨.miss, .word v⟩
                  fsm := .idle }

/-- A LOAD that misses in a full set whose LRU victim is dirty completes; the victim's whole buffer is written to
the block its tag and its set name, its `dirty` is cleared, and then the new block is read from Memory (R158, R160). -/
def Obligations.LoadMissWritesBackDirtyVictim : Prop :=
  ∀ (s : State) (sh : Shape) (addr : Word) (l : Line) (m : Memory),
    Inv s → s.configured = true → s.geometry.shape? = some sh → inBounds sh addr = true →
      find (waysOf sh s addr) (tagReg sh addr) = none → firstFree (waysOf sh s addr) = none →
        (waysOf sh s addr)[lruVictim (waysOf sh s addr)]? = some l → l.dirty = true →
          m = s.mem.writeBytes (blockAddressOf sh l.tag.toNat (setIndex sh addr)) l.data →
            ∃ v, unbe32 (slice (m.readBytes (blockStart sh addr) sh.blockBytes) (wordOffset sh addr) 4) = some v
              ∧ exec (.load addr) s = .next
                  { s with
                    mem := m
                    lines := s.lines.set (lineIndex sh (setIndex sh addr) (lruVictim (waysOf sh s addr)))
                      ⟨true, false, tagReg sh addr, s.cycles, m.readBytes (blockStart sh addr) sh.blockBytes⟩
                    misses := s.misses + 1#32
                    cycles := s.cycles + 100#32
                    response := some ⟨.miss, .word v⟩
                    fsm := .idle }

/-! ### STORE (43_store.md) -/

/-- R183: a STORE that hits completes; the four bytes of the value go into the matching line's buffer at the word
offset, most significant first, the line is dirty and stamped; `valid`, `tag`, the other bytes and Memory are as they
were. -/
def Obligations.StoreHitCompletes : Prop :=
  ∀ (s : State) (sh : Shape) (addr value : Word) (w : Nat),
    Formed s → s.configured = true → s.geometry.shape? = some sh → inBounds sh addr = true →
      find (waysOf sh s addr) (tagReg sh addr) = some w →
        ∃ l, s.lines[lineIndex sh (setIndex sh addr) w]? = some l
          ∧ exec (.store addr value) s = .next
              { s with
                lines := s.lines.set (lineIndex sh (setIndex sh addr) w)
                  ⟨l.valid, true, l.tag, s.cycles, splice l.data (wordOffset sh addr) (be32 value)⟩
                hits := s.hits + 1#32
                cycles := s.cycles + 1#32
                response := some ⟨.hit, .word value⟩
                fsm := .idle }

/-- A STORE that misses with a free way completes: the whole block is filled from Memory first, then the word is
written on top and the line is dirty (R185). -/
def Obligations.StoreMissTakesFreeWay : Prop :=
  ∀ (s : State) (sh : Shape) (addr value : Word) (w : Nat),
    Formed s → s.configured = true → s.geometry.shape? = some sh → inBounds sh addr = true →
      find (waysOf sh s addr) (tagReg sh addr) = none → firstFree (waysOf sh s addr) = some w →
        exec (.store addr value) s = .next
          { s with
            lines := s.lines.set (lineIndex sh (setIndex sh addr) w)
              ⟨true, true, tagReg sh addr, s.cycles,
                splice (s.mem.readBytes (blockStart sh addr) sh.blockBytes) (wordOffset sh addr) (be32 value)⟩
            misses := s.misses + 1#32
            cycles := s.cycles + 100#32
            response := some ⟨.miss, .word value⟩
            fsm := .idle }

/-- A STORE that misses in a full set whose LRU victim is clean completes: fill, then the word, dirty; Memory is not
written (R185). -/
def Obligations.StoreMissReplacesCleanVictim : Prop :=
  ∀ (s : State) (sh : Shape) (addr value : Word) (l : Line),
    Formed s → s.configured = true → s.geometry.shape? = some sh → inBounds sh addr = true →
      find (waysOf sh s addr) (tagReg sh addr) = none → firstFree (waysOf sh s addr) = none →
        (waysOf sh s addr)[lruVictim (waysOf sh s addr)]? = some l → l.dirty = false →
          exec (.store addr value) s = .next
            { s with
              lines := s.lines.set (lineIndex sh (setIndex sh addr) (lruVictim (waysOf sh s addr)))
                ⟨true, true, tagReg sh addr, s.cycles,
                  splice (s.mem.readBytes (blockStart sh addr) sh.blockBytes) (wordOffset sh addr) (be32 value)⟩
              misses := s.misses + 1#32
              cycles := s.cycles + 100#32
              response := some ⟨.miss, .word value⟩
              fsm := .idle }

/-- A STORE that misses in a full set whose LRU victim is dirty completes: the victim is written back, the new block is
filled from Memory, then the word is written on top and the line is dirty (R185). -/
def Obligations.StoreMissWritesBackDirtyVictim : Prop :=
  ∀ (s : State) (sh : Shape) (addr value : Word) (l : Line) (m : Memory),
    Inv s → s.configured = true → s.geometry.shape? = some sh → inBounds sh addr = true →
      find (waysOf sh s addr) (tagReg sh addr) = none → firstFree (waysOf sh s addr) = none →
        (waysOf sh s addr)[lruVictim (waysOf sh s addr)]? = some l → l.dirty = true →
          m = s.mem.writeBytes (blockAddressOf sh l.tag.toNat (setIndex sh addr)) l.data →
            exec (.store addr value) s = .next
              { s with
                mem := m
                lines := s.lines.set (lineIndex sh (setIndex sh addr) (lruVictim (waysOf sh s addr)))
                  ⟨true, true, tagReg sh addr, s.cycles,
                    splice (m.readBytes (blockStart sh addr) sh.blockBytes) (wordOffset sh addr) (be32 value)⟩
                misses := s.misses + 1#32
                cycles := s.cycles + 100#32
                response := some ⟨.miss, .word value⟩
                fsm := .idle }

/-! ### Rejections (60_exceptions.md) -/

/-- The conditions under which a command is rejected, each enough by itself, with the error; R253 in particular:
`SequenceError` answers LOAD and STORE before CONFIGURE, and CONFIGURE after it. Nothing but the response changes. With
them stand the codes of all seven statuses (R94), of which the errors are those with bit 3 set. -/
def Obligations.RejectionConditions : Prop :=
  ∀ (s : State) (sh : Shape) (addr x bs nb nw : Word),
    (s.configured = false →
      exec (.load addr) s = .next { s with response := some ⟨.sequenceError, .none⟩, fsm := .idle }
        ∧ exec (.store addr x) s = .next { s with response := some ⟨.sequenceError, .none⟩, fsm := .idle })
      ∧ (s.configured = true →
        exec (.configure bs nb nw) s = .next { s with response := some ⟨.sequenceError, .none⟩, fsm := .idle })
      ∧ (s.configured = false → validGeometry bs nb nw = false →
        exec (.configure bs nb nw) s = .next { s with response := some ⟨.configError, .none⟩, fsm := .idle })
      ∧ (s.configured = true → s.geometry.shape? = some sh → Config.memSize < blockStart sh addr + sh.blockBytes →
        exec (.load addr) s = .next { s with response := some ⟨.outOfBounds, .none⟩, fsm := .idle }
          ∧ exec (.store addr x) s = .next { s with response := some ⟨.outOfBounds, .none⟩, fsm := .idle })
      ∧ (Config.memSize < addr.toNat + x.toNat →
        exec (.dumpMemory addr x) s = .next { s with response := some ⟨.outOfBounds, .none⟩, fsm := .idle })
      ∧ Status.hit.code = 0x0#4 ∧ Status.miss.code = 0x1#4 ∧ Status.done.code = 0x2#4
      ∧ Status.configError.code = 0x8#4 ∧ Status.outOfBounds.code = 0x9#4 ∧ Status.sequenceError.code = 0xA#4
      ∧ Status.illegalCommand.code = 0xB#4 ∧ ∀ e : Status, e.isError = true ↔ e.code.getLsbD 3 = true

/-- Which error each of the six commands can get, and in which state (the columns of R255's table). -/
def Obligations.ErrorsOfEachCommand : Prop :=
  ∀ (i : Instr) (s t : State) (e : Status) (p : Payload),
    exec i s = .next t → t.response = some ⟨e, p⟩ →
      (e = .configError → s.configured = false ∧ ∃ bs nb nw, i = .configure bs nb nw)
        ∧ (e = .sequenceError →
          (s.configured = true ∧ ∃ bs nb nw, i = .configure bs nb nw)
            ∨ (s.configured = false ∧ ((∃ addr, i = .load addr) ∨ ∃ addr v, i = .store addr v)))
        ∧ (e = .outOfBounds →
          (s.configured = true ∧ ((∃ addr, i = .load addr) ∨ ∃ addr v, i = .store addr v))
            ∨ ∃ addr n, i = .dumpMemory addr n)
        ∧ e ≠ .illegalCommand

/-- R256: when a command answers an error, the response has no payload and no bit of state has changed. -/
def Obligations.RejectionChangesNothing : Prop :=
  ∀ (i : Instr) (s t : State) (e : Status) (p : Payload),
    exec i s = .next t → t.response = some ⟨e, p⟩ → e.isError = true →
      p = .none ∧ t = { s with response := some ⟨e, .none⟩, fsm := .idle }

/-! ### STATS, DUMP_MEMORY, DUMP_CACHE -/

/-- STATS completes in every state; it answers the three counters, `hits`, `misses`, `cycles` in this order, and changes
nothing (R205). -/
def Obligations.StatsReturnsCounters : Prop :=
  ∀ s : State,
    exec .stats s = .next { s with response := some ⟨.done, .counters s.hits s.misses s.cycles⟩, fsm := .idle }

/-- DUMP_MEMORY of a range inside Memory, the sum not reduced modulo 2^32, completes in every state: it answers the bytes
of Memory in ascending address order and changes nothing. Of any other range it is `OutOfBounds` (R230, R231). -/
def Obligations.DumpMemoryReturnsBytes : Prop :=
  ∀ (s : State) (addr length : Word),
    (addr.toNat + length.toNat ≤ Config.memSize →
      ∃ bs, exec (.dumpMemory addr length) s = .next { s with response := some ⟨.done, .bytes bs⟩, fsm := .idle }
        ∧ bs.length = length.toNat ∧ ∀ i < length.toNat, bs[i]? = some (s.mem.read (addr.toNat + i)))
      ∧ (Config.memSize < addr.toNat + length.toNat →
        exec (.dumpMemory addr length) s = .next { s with response := some ⟨.outOfBounds, .none⟩, fsm := .idle })

/-- DUMP_CACHE completes in every state and changes nothing; it answers every line in ascending linear index (R236),
and no line on a block that is not configured (R237). -/
def Obligations.DumpCacheReturnsLines : Prop :=
  ∀ s : State,
    (s.configured = true →
      exec .dumpCache s = .next { s with response := some ⟨.done, .lines s.lines⟩, fsm := .idle })
      ∧ (s.configured = false →
        exec .dumpCache s = .next { s with response := some ⟨.done, .lines []⟩, fsm := .idle })

/-! ### Frames -/

/-- What CONFIGURE, STATS, DUMP_MEMORY and DUMP_CACHE leave alone: every byte of Memory, MEM_INIT, the counters and the
host's moves; and all but CONFIGURE the configuration and every line too. -/
def Obligations.FrameOfCommandsThatDoNotAccess : Prop :=
  ∀ (i : Instr) (s t : State), accessAddr? i = none → exec i s = .next t →
    (∀ a, t.mem.read a = s.mem.read a) ∧ t.mem = s.mem ∧ t.cycles = s.cycles ∧ t.hits = s.hits ∧ t.misses = s.misses
      ∧ t.hostMoves = s.hostMoves
      ∧ ((∀ bs nb nw, i ≠ .configure bs nb nw) →
          t.configured = s.configured ∧ t.geometry = s.geometry ∧ t.lines = s.lines)

/-- What LOAD and STORE leave alone: the configuration, the geometry, MEM_INIT, the host's moves, every line but the
accessed one, and every byte of Memory outside the block that is written back (none unless a dirty line is evicted). -/
def Obligations.FrameOfLoadAndStore : Prop :=
  ∀ (i : Instr) (addr : Word) (s t : State) (sh : Shape),
    accessAddr? i = some addr → s.geometry.shape? = some sh → exec i s = .next t →
      t.configured = s.configured ∧ t.geometry = s.geometry ∧ t.mem.init = s.mem.init ∧ t.hostMoves = s.hostMoves
        ∧ t.lines.length = s.lines.length
        ∧ (∀ k, k ≠ accessIndex sh s addr → t.lines[k]? = s.lines[k]?)
        ∧ ∀ a, (∀ b, writtenBack? sh s addr = some b → ¬(b ≤ a ∧ a < b + sh.blockBytes)) →
            t.mem.read a = s.mem.read a

/-- R200: the accounting step. A command that answers HIT or MISS counts it and advances `cycles` by 1 or 100, each
modulo 2^32; a command with any other answer changes no counter. -/
def Obligations.AccountingStep : Prop :=
  ∀ (i : Instr) (s t : State) (e : Status) (p : Payload),
    exec i s = .next t → t.response = some ⟨e, p⟩ →
      (e = .hit → t.hits = BitVec.ofNat 32 (s.hits.toNat + 1) ∧ t.misses = s.misses
          ∧ t.cycles = BitVec.ofNat 32 (s.cycles.toNat + 1))
        ∧ (e = .miss → t.hits = s.hits ∧ t.misses = BitVec.ofNat 32 (s.misses.toNat + 1)
          ∧ t.cycles = BitVec.ofNat 32 (s.cycles.toNat + 100))
        ∧ (e ≠ .hit → e ≠ .miss → t.hits = s.hits ∧ t.misses = s.misses ∧ t.cycles = s.cycles)

/-- The geometry registers are written only by a CONFIGURE that answers DONE; once configured, a step that is not a
reset leaves them, `configured` and the number of lines as they are (R21, R23, R225). -/
def Obligations.GeometryIsImmutable : Prop :=
  (∀ (i : Instr) (s t : State), exec i s = .next t →
      t.geometry = s.geometry
        ∨ ∃ bs nb nw, i = .configure bs nb nw ∧ s.configured = false ∧ t.geometry = ⟨bs, nb, nw⟩
            ∧ t.response = some ⟨.done, .none⟩)
    ∧ ∀ s t : State, s.configured = true → step s = .next t → (∀ rest, s.hostMoves ≠ .reset :: rest) →
        t.configured = true ∧ t.geometry = s.geometry ∧ t.lines.length = s.lines.length

/-- R42: the lifecycle of a line. Lines start invalid; a command never makes a valid line invalid; a line becomes valid
only as the free way of a miss; a valid line changes its tag only as the LRU victim of a miss in a full set. -/
def Obligations.LifecycleOfALine : Prop :=
  (∀ (s t : State) (bs nb nw : Word), exec (.configure bs nb nw) s = .next t → t.response = some ⟨.done, .none⟩ →
      ∀ l ∈ t.lines, l.valid = false)
    ∧ ∀ (i : Instr) (s t : State) (k : Nat) (l l' : Line), Formed s → exec i s = .next t →
        s.lines[k]? = some l → t.lines[k]? = some l' →
          (l.valid = true → l'.valid = true)
            ∧ (l.valid = false → l'.valid = true →
                ∃ addr sh, accessAddr? i = some addr ∧ s.geometry.shape? = some sh ∧ k = accessIndex sh s addr
                  ∧ find (waysOf sh s addr) (tagReg sh addr) = none
                  ∧ firstFree (waysOf sh s addr) = some (accessWay sh s addr))
            ∧ (l.valid = true → l'.tag ≠ l.tag →
                ∃ addr sh, accessAddr? i = some addr ∧ s.geometry.shape? = some sh ∧ k = accessIndex sh s addr
                  ∧ find (waysOf sh s addr) (tagReg sh addr) = none ∧ firstFree (waysOf sh s addr) = none
                  ∧ accessWay sh s addr = lruVictim (waysOf sh s addr))

/-- R186: after a STORE that is not rejected the accessed line is dirty, whatever the value. Further (R27): a LOAD never makes a line
dirty; a dirty line becomes clean only in a LOAD that evicts it and writes its block back. -/
def Obligations.DirtyBitRules : Prop :=
  (∀ (s t : State) (sh : Shape) (addr v : Word), s.configured = true → s.geometry.shape? = some sh →
      inBounds sh addr = true → exec (.store addr v) s = .next t →
        ∃ l, t.lines[accessIndex sh s addr]? = some l ∧ l.dirty = true)
    ∧ (∀ (s t : State) (addr : Word) (k : Nat) (l' : Line), exec (.load addr) s = .next t →
        t.lines[k]? = some l' → l'.dirty = true → ∃ l, s.lines[k]? = some l ∧ l.dirty = true)
    ∧ ∀ (i : Instr) (s t : State) (k : Nat) (l l' : Line), Formed s → exec i s = .next t →
        s.lines[k]? = some l → t.lines[k]? = some l' → l.dirty = true → l'.dirty = false →
          ∃ addr sh, i = .load addr ∧ s.geometry.shape? = some sh ∧ k = accessIndex sh s addr
            ∧ writtenBack? sh s addr = some (blockAddressOf sh l.tag.toNat (setIndex sh addr))

/-! ### Invariants (70_reset_and_hazards.md) -/

/-- The invariants hold right after reset. -/
def Obligations.InvariantsHoldAtReset : Prop :=
  Formed State.reset ∧ Inv State.reset ∧ StampsFresh State.reset ∧ CounterLaw State.reset

/-- Every step keeps the form of the state: Memory in canonical form inside `0 .. MEM_SIZE-1`, no command in progress, a
valid geometry with `num_blocks` lines whose buffers hold one block and whose tags have no bits above `tag_bits`. -/
def Obligations.FormKeptByEveryStep : Prop := ∀ s t : State, Formed s → step s = .next t → Formed t

/-- Every step keeps the whole invariant: valid ways first, no two valid lines of a set with one tag, every valid line's
block inside Memory, every clean valid line equal to its block of Memory (R302 to R305). -/
def Obligations.InvariantKeptByEveryStep : Prop := ∀ s t : State, Inv s → step s = .next t → Inv t

/-- In every state with the form of a machine state, a step keeps "no two valid lines in the same set share a tag"
(R303). -/
def Obligations.TagsStayUnique : Prop :=
  ∀ (s t : State) (sh sh' : Shape), Formed s → s.geometry.shape? = some sh → TagsUnique sh s →
    step s = .next t → t.geometry.shape? = some sh' → TagsUnique sh' t

/-- A step that does not wrap `cycles` (a hit, a miss, a rejection, any other command, a waiting step), and every reset,
keeps the valid lines' timestamps different and below `cycles` (R301). -/
def Obligations.TimestampsStayDistinct : Prop :=
  ∀ s t : State, Formed s → StampsFresh s → step s = .next t →
    (s.cycles.toNat ≤ t.cycles.toNat ∨ ∃ rest, s.hostMoves = .reset :: rest) → StampsFresh t

/-- While the timestamps are distinct, the LRU victim of a set is the one way accessed longest ago: its timestamp is
below that of every other way (R301, R138). -/
def Obligations.LruVictimIsTheOldest : Prop :=
  ∀ (s : State) (sh : Shape) (st w : Nat) (l : Line), Formed s → s.configured = true →
    s.geometry.shape? = some sh → StampsFresh s → st < sh.numSets → firstFree (setLines sh s.lines st) = none →
      (setLines sh s.lines st)[w]? = some l → w ≠ lruVictim (setLines sh s.lines st) →
        ∃ v, (setLines sh s.lines st)[lruVictim (setLines sh s.lines st)]? = some v
          ∧ v.timestamp.toNat < l.timestamp.toNat

/-- Every step keeps the counter law `cycles = hits + 100 * misses` modulo 2^32 (R203). -/
def Obligations.CounterLawKept : Prop := ∀ s t : State, CounterLaw s → step s = .next t → CounterLaw t

/-- In a state that satisfies the invariant every command completes, and so does every step: nothing faults, nothing is
refused, nothing hangs (R17, R152). -/
def Obligations.EveryCommandCompletes : Prop :=
  ∀ s : State, Inv s → (∀ i : Instr, Completes (exec i s)) ∧ Completes (step s)

/-! ### The cache is transparent (20_memory.md, R66) -/

/-- A LOAD leaves the coherent view of every byte in bounds as it was, and its `rdata` is the word of the view. -/
def Obligations.LoadKeepsTheView : Prop :=
  ∀ (s t : State) (sh : Shape) (addr : Word), Inv s → s.configured = true → s.geometry.shape? = some sh →
    exec (.load addr) s = .next t →
      (∀ a, inBounds sh a = true → view sh t a = view sh s a)
        ∧ (inBounds sh addr = true →
          ∃ o v, t.response = answered o v ∧ ∀ k < 4, view sh s (wordByte addr k) = (be32 v)[k]?)

/-- A STORE that is not rejected changes the coherent view at exactly the four bytes of its word, to the value's bytes,
and nowhere else. -/
def Obligations.StoreChangesOneWordOfTheView : Prop :=
  ∀ (s t : State) (sh : Shape) (addr v : Word), Inv s → s.configured = true → s.geometry.shape? = some sh →
    inBounds sh addr = true → exec (.store addr v) s = .next t →
      ∀ a, inBounds sh a = true →
        view sh t a
          = if a.toNat - a.toNat % 4 = addr.toNat - addr.toNat % 4 then (be32 v)[a.toNat % 4]? else view sh s a

/-- Round trip: a STORE that is not rejected, followed at once by a LOAD of any address in the same word, answers a hit
with the stored value (R189). -/
def Obligations.StoreThenLoadReturnsValue : Prop :=
  ∀ (s t : State) (sh : Shape) (addr addr' v : Word), Formed s → s.configured = true →
    s.geometry.shape? = some sh → inBounds sh addr = true → exec (.store addr v) s = .next t →
      addr'.toNat / 4 = addr.toNat / 4 → ∃ u, exec (.load addr') t = .next u ∧ u.response = answered .hit v

/-- After a LOAD or STORE that is not rejected the block is resident in the way the access used, so that the same
address accessed again is a hit (R162). -/
def Obligations.AccessedBlockIsResident : Prop :=
  ∀ (i : Instr) (addr : Word) (s t : State) (sh : Shape), Formed s → s.configured = true →
    accessAddr? i = some addr → s.geometry.shape? = some sh → inBounds sh addr = true → exec i s = .next t →
      find (waysOf sh t addr) (tagReg sh addr) = some (accessWay sh s addr) ∧ accessOutcome sh t addr = .hit

/-- Write-back correctness: after a LOAD or STORE that evicts a dirty line, the line's buffer stands in Memory at the
address rebuilt from its tag and set (R307). -/
def Obligations.WriteBackReachesMemory : Prop :=
  ∀ (i : Instr) (addr : Word) (s t : State) (sh : Shape) (b : Nat), s.configured = true →
    accessAddr? i = some addr → s.geometry.shape? = some sh → inBounds sh addr = true → exec i s = .next t →
      writtenBack? sh s addr = some b →
        ∃ l, s.lines[accessIndex sh s addr]? = some l ∧ b = blockAddressOf sh l.tag.toNat (setIndex sh addr)
          ∧ t.mem.readBytes b sh.blockBytes = l.data

/-- A STORE never writes Memory at the block it stores to: that block's bytes of Memory are as they were (R187). -/
def Obligations.StoreLeavesItsBlockOfMemory : Prop :=
  ∀ (s t : State) (sh : Shape) (addr v : Word), Inv s → s.configured = true → s.geometry.shape? = some sh →
    exec (.store addr v) s = .next t →
      ∀ k < sh.blockBytes, t.mem.read (blockStart sh addr + k) = s.mem.read (blockStart sh addr + k)

/-! ### The miss-handler state machine (R151, R152) -/

/-- Every transition of the state machine, of any command in any state, is an edge of R152's graph, and an accepted
command starts in CHECK; the conditions are R152's. A CHECK that fails writes nothing and carries its error to RESPOND, on
an unconfigured block too; a command that is no LOAD or STORE goes from CHECK to RESPOND (log entry 11). -/
def Obligations.MissHandlerTransitions : Prop :=
  (∀ (i : Instr) (s : State), (Handler.start i s).st = { s with fsm := .check } ∧ (Handler.start i s).instr = i)
    ∧ ∀ h h' : Handler, h.tick = .ok h' →
      fsmEdge h.instr h.st.fsm h'.st.fsm = true
        ∧ h'.instr = h.instr
        ∧ (h.st.fsm = .idle → h' = h)
        ∧ (h.st.fsm = .respond →
            h'.st = { h.st with response := some ⟨h.status, h.payload⟩, fsm := .idle })
        ∧ (h.st.fsm = .check → accessAddr? h.instr = none → h'.st.fsm = .respond)
        ∧ ∀ addr, accessAddr? h.instr = some addr →
          (h.st.fsm = .check → h.st.configured = false →
              h'.st = { h.st with fsm := .respond } ∧ h'.status = .sequenceError ∧ h'.payload = .none)
            ∧ ∀ sh, h.st.geometry.shape? = some sh →
              (h.st.fsm = .check → h.st.configured = true → inBounds sh addr = false →
                  h'.st = { h.st with fsm := .respond } ∧ h'.status = .outOfBounds ∧ h'.payload = .none)
                ∧ (h.st.fsm = .check → h.st.configured = true → inBounds sh addr = true →
                    h'.st = { h.st with fsm := .lookup })
                ∧ (h.st.fsm = .lookup → ∀ w, find (waysOf sh h.st addr) (tagReg sh addr) = some w →
                    h'.st.fsm = .hitUpdate ∧ h'.way = w)
                ∧ (h.st.fsm = .lookup → find (waysOf sh h.st addr) (tagReg sh addr) = none →
                    ∀ w, firstFree (waysOf sh h.st addr) = some w → h'.st.fsm = .fill ∧ h'.way = w)
                ∧ (h.st.fsm = .lookup → find (waysOf sh h.st addr) (tagReg sh addr) = none →
                    firstFree (waysOf sh h.st addr) = none → h'.st.fsm = .victim)
                ∧ (h.st.fsm = .victim → h'.way = lruVictim (waysOf sh h.st addr)
                    ∧ ∃ l, h.st.lines[lineIndex sh (setIndex sh addr) h'.way]? = some l
                      ∧ h'.st.fsm = if l.dirty then .writeback else .fill)
                ∧ (h.st.fsm = .writeback → h'.st.fsm = .fill)
                ∧ (h.st.fsm = .hitUpdate ∨ h.st.fsm = .fill →
                    h'.st.fsm = if (storeValue? h.instr).isSome then .writeWord else .account)
                ∧ (h.st.fsm = .writeWord → h'.st.fsm = .account)
                ∧ (h.st.fsm = .account → h'.st.fsm = .respond)

/-- The state machine run from CHECK is back in IDLE after at most eight transitions, and has done exactly what the
command's atomic meaning does (R152, R36; the count is from CHECK, log entry 11). -/
def Obligations.MissHandlerRunsTheCommand : Prop :=
  ∀ (i : Instr) (s t : State), exec i s = .next t →
    ∃ n ≤ 8, ∃ h, (Handler.start i s).run n = .ok h ∧ h.st.fsm = .idle ∧ h.st = t
end

