-- ==== Sys2Proof/Laws/State.lean ====
section
/-! SUPPORT. One lemma per field per update of State, so that no proof unfolds a record update. -/

namespace Sys2Proof.Machine

section

variable (s : State) (sh : Shape) (set w : Nat) (l : Line)

@[simp] theorem State.setLine_configured : (s.setLine sh set w l).configured = s.configured := rfl
@[simp] theorem State.setLine_geometry : (s.setLine sh set w l).geometry = s.geometry := rfl
@[simp] theorem State.setLine_lines : (s.setLine sh set w l).lines = s.lines.set (lineIndex sh set w) l := rfl
@[simp] theorem State.setLine_cycles : (s.setLine sh set w l).cycles = s.cycles := rfl
@[simp] theorem State.setLine_hits : (s.setLine sh set w l).hits = s.hits := rfl
@[simp] theorem State.setLine_misses : (s.setLine sh set w l).misses = s.misses := rfl
@[simp] theorem State.setLine_mem : (s.setLine sh set w l).mem = s.mem := rfl
@[simp] theorem State.setLine_fsm : (s.setLine sh set w l).fsm = s.fsm := rfl
@[simp] theorem State.setLine_hostMoves : (s.setLine sh set w l).hostMoves = s.hostMoves := rfl
@[simp] theorem State.setLine_response : (s.setLine sh set w l).response = s.response := rfl

end

section

variable (s : State) (m : Memory)

@[simp] theorem State.setMem_configured : (s.setMem m).configured = s.configured := rfl
@[simp] theorem State.setMem_geometry : (s.setMem m).geometry = s.geometry := rfl
@[simp] theorem State.setMem_lines : (s.setMem m).lines = s.lines := rfl
@[simp] theorem State.setMem_cycles : (s.setMem m).cycles = s.cycles := rfl
@[simp] theorem State.setMem_hits : (s.setMem m).hits = s.hits := rfl
@[simp] theorem State.setMem_misses : (s.setMem m).misses = s.misses := rfl
@[simp] theorem State.setMem_mem : (s.setMem m).mem = m := rfl
@[simp] theorem State.setMem_fsm : (s.setMem m).fsm = s.fsm := rfl
@[simp] theorem State.setMem_hostMoves : (s.setMem m).hostMoves = s.hostMoves := rfl
@[simp] theorem State.setMem_response : (s.setMem m).response = s.response := rfl

end

section

variable (s : State) (bs nb nw : Word)

@[simp] theorem State.install_configured : (s.install bs nb nw).configured = true := rfl
@[simp] theorem State.install_geometry : (s.install bs nb nw).geometry = ⟨bs, nb, nw⟩ := rfl
@[simp] theorem State.install_lines : (s.install bs nb nw).lines = List.replicate nb.toNat (Line.empty bs.toNat) := rfl
@[simp] theorem State.install_cycles : (s.install bs nb nw).cycles = s.cycles := rfl
@[simp] theorem State.install_hits : (s.install bs nb nw).hits = s.hits := rfl
@[simp] theorem State.install_misses : (s.install bs nb nw).misses = s.misses := rfl
@[simp] theorem State.install_mem : (s.install bs nb nw).mem = s.mem := rfl
@[simp] theorem State.install_fsm : (s.install bs nb nw).fsm = s.fsm := rfl
@[simp] theorem State.install_hostMoves : (s.install bs nb nw).hostMoves = s.hostMoves := rfl
@[simp] theorem State.install_response : (s.install bs nb nw).response = s.response := rfl

end

section

variable (s : State) (st : Status) (p : Payload)

@[simp] theorem State.respond_configured : (s.respond st p).configured = s.configured := rfl
@[simp] theorem State.respond_geometry : (s.respond st p).geometry = s.geometry := rfl
@[simp] theorem State.respond_lines : (s.respond st p).lines = s.lines := rfl
@[simp] theorem State.respond_cycles : (s.respond st p).cycles = s.cycles := rfl
@[simp] theorem State.respond_hits : (s.respond st p).hits = s.hits := rfl
@[simp] theorem State.respond_misses : (s.respond st p).misses = s.misses := rfl
@[simp] theorem State.respond_mem : (s.respond st p).mem = s.mem := rfl
@[simp] theorem State.respond_fsm : (s.respond st p).fsm = .idle := rfl
@[simp] theorem State.respond_hostMoves : (s.respond st p).hostMoves = s.hostMoves := rfl
@[simp] theorem State.respond_response : (s.respond st p).response = some ⟨st, p⟩ := rfl

end

section

variable (s : State)

@[simp] theorem State.applyReset_configured : s.applyReset.configured = false := rfl
@[simp] theorem State.applyReset_geometry : s.applyReset.geometry = ⟨0#32, 0#32, 0#32⟩ := rfl
@[simp] theorem State.applyReset_lines : s.applyReset.lines = [] := rfl
@[simp] theorem State.applyReset_cycles : s.applyReset.cycles = 0#32 := rfl
@[simp] theorem State.applyReset_hits : s.applyReset.hits = 0#32 := rfl
@[simp] theorem State.applyReset_misses : s.applyReset.misses = 0#32 := rfl
@[simp] theorem State.applyReset_mem : s.applyReset.mem = ⟨[], s.mem.init⟩ := rfl
@[simp] theorem State.applyReset_fsm : s.applyReset.fsm = .idle := rfl
@[simp] theorem State.applyReset_hostMoves : s.applyReset.hostMoves = s.hostMoves := rfl
@[simp] theorem State.applyReset_response : s.applyReset.response = none := rfl

end

section

variable (o : HitMiss) (s : State)

@[simp] theorem account_configured : (account o s).configured = s.configured := by cases o <;> rfl
@[simp] theorem account_geometry : (account o s).geometry = s.geometry := by cases o <;> rfl
@[simp] theorem account_lines : (account o s).lines = s.lines := by cases o <;> rfl
@[simp] theorem account_hit_cycles : (account .hit s).cycles = s.cycles + Config.cyclesHit := rfl
@[simp] theorem account_miss_cycles : (account .miss s).cycles = s.cycles + Config.cyclesMiss := rfl
@[simp] theorem account_hit_hits : (account .hit s).hits = s.hits + 1#32 := rfl
@[simp] theorem account_miss_hits : (account .miss s).hits = s.hits := rfl
@[simp] theorem account_hit_misses : (account .hit s).misses = s.misses := rfl
@[simp] theorem account_miss_misses : (account .miss s).misses = s.misses + 1#32 := rfl
@[simp] theorem account_mem : (account o s).mem = s.mem := by cases o <;> rfl
@[simp] theorem account_fsm : (account o s).fsm = s.fsm := by cases o <;> rfl
@[simp] theorem account_hostMoves : (account o s).hostMoves = s.hostMoves := by cases o <;> rfl
@[simp] theorem account_response : (account o s).response = s.response := by cases o <;> rfl

end

end Sys2Proof.Machine
end

