-- ==== Sys2Proof/Laws/Memory.lean ====
section
/-! SUPPORT. The laws of Memory: a read after a write, what writes leave alone, the canonical form kept (R35, R56, R57). -/

namespace Sys2Proof.Machine

/-! ### Cells -/

theorem lookupCell_eraseCell (cells : List Host.Cell) (a b : Nat) :
    lookupCell (eraseCell cells a) b = if b = a then none else lookupCell cells b := by
  induction cells with
  | nil => simp [eraseCell, lookupCell]
  | cons c cs ih =>
    unfold eraseCell at ih ⊢
    by_cases hc : c.1 = a
    · rw [List.filter_cons_of_neg (by simp [hc]), ih]
      by_cases hb : b = a
      · simp [hb]
      · simp [lookupCell, hb, hc, Ne.symm hb]
    · rw [List.filter_cons_of_pos (by simp [hc])]
      by_cases hb : b = a
      · subst hb; simp [lookupCell, hc, ih]
      · simp [lookupCell, hb, ih]

theorem lookupCell_insertCell (cells : List Host.Cell) (a b : Nat) (v : Byte) :
    lookupCell (insertCell cells a v) b = if b = a then some v else lookupCell cells b := by
  induction cells with
  | nil => simp [insertCell, lookupCell, eq_comm]
  | cons c cs ih =>
    unfold insertCell
    split
    · simp [lookupCell, eq_comm]
    · split
      · rename_i h; subst h; by_cases hb : b = c.1 <;> simp [lookupCell, hb, eq_comm]
      · rename_i h; by_cases hb : b = a
        · subst hb; simp [lookupCell, Ne.symm h, ih]
        · simp [lookupCell, ih, hb]

theorem mem_eraseCell {cells : List Host.Cell} {a : Nat} {c : Host.Cell} (h : c ∈ eraseCell cells a) : c ∈ cells :=
  List.mem_of_mem_filter h

theorem mem_insertCell {cells : List Host.Cell} {a : Nat} {v : Byte} {c : Host.Cell} (h : c ∈ insertCell cells a v) :
    c = (a, v) ∨ c ∈ cells := by
  induction cells with
  | nil => simpa [insertCell] using h
  | cons d ds ih =>
    unfold insertCell at h
    split at h
    · simpa using h
    · split at h
      · simp only [List.mem_cons] at h ⊢; tauto
      · simp only [List.mem_cons] at h ⊢
        rcases h with h | h
        · exact .inr (.inl h)
        · exact (ih h).imp_right .inr

theorem eraseCell_rising {cells : List Host.Cell} (a : Nat) (h : cells.Pairwise (fun c d => c.1 < d.1)) :
    (eraseCell cells a).Pairwise (fun c d => c.1 < d.1) := h.filter _

theorem insertCell_rising {cells : List Host.Cell} (a : Nat) (v : Byte) (h : cells.Pairwise (fun c d => c.1 < d.1)) :
    (insertCell cells a v).Pairwise (fun c d => c.1 < d.1) := by
  induction cells with
  | nil => simp [insertCell]
  | cons c cs ih =>
    obtain ⟨hc, hcs⟩ := List.pairwise_cons.1 h
    unfold insertCell
    split
    · rename_i hlt
      refine List.pairwise_cons.2 ⟨fun d hd => ?_, h⟩
      rcases List.mem_cons.1 hd with rfl | hd
      · exact hlt
      · exact Nat.lt_trans hlt (hc d hd)
    · split
      · rename_i he
        exact List.pairwise_cons.2 ⟨fun d hd => by simpa [he] using hc d hd, hcs⟩
      · rename_i h1 h2
        refine List.pairwise_cons.2 ⟨fun d hd => ?_, ih hcs⟩
        rcases mem_insertCell hd with rfl | hd
        · simp only; omega
        · exact hc d hd

/-! ### One byte -/

@[simp] theorem Memory.write_init (m : Memory) (a : Nat) (v : Byte) : (m.write a v).init = m.init := rfl

@[simp] theorem Memory.write_unlisted (m : Memory) (a b : Nat) (v : Byte) : (m.write a v).unlisted b = m.unlisted b := rfl

/-- A read after a write: the byte written at its address, every other byte as before. -/
theorem Memory.read_write (m : Memory) (a b : Nat) (v : Byte) :
    (m.write a v).read b = if b = a then v else m.read b := by
  unfold Memory.read
  rw [Memory.write_unlisted]
  unfold Memory.write
  by_cases hv : v = m.unlisted a
  · rw [if_pos hv, lookupCell_eraseCell]
    by_cases hb : b = a <;> simp [hb, hv]
  · rw [if_neg hv, lookupCell_insertCell]
    by_cases hb : b = a <;> simp [hb]

/-- A write inside Memory keeps the canonical form. -/
theorem Memory.write_wf {m : Memory} (a : Nat) (v : Byte) (h : m.wf) (ha : a < Config.memSize) : (m.write a v).wf := by
  obtain ⟨hr, hc⟩ := h
  by_cases hv : v = m.unlisted a
  · have he : (m.write a v).cells = eraseCell m.cells a := by simp [Memory.write, hv]
    refine ⟨by rw [he]; exact eraseCell_rising a hr, fun c hm => ?_⟩
    rw [he] at hm
    exact hc c (mem_eraseCell hm)
  · have he : (m.write a v).cells = insertCell m.cells a v := by simp [Memory.write, hv]
    refine ⟨by rw [he]; exact insertCell_rising a v hr, fun c hm => ?_⟩
    rw [he] at hm
    rcases mem_insertCell hm with rfl | hm
    · exact ⟨ha, hv⟩
    · exact hc c hm

/-! ### Runs of bytes -/

@[simp] theorem Memory.readBytes_length (m : Memory) (a n : Nat) : (m.readBytes a n).length = n := by
  simp [Memory.readBytes]

theorem Memory.readBytes_getElem? (m : Memory) (a n i : Nat) :
    (m.readBytes a n)[i]? = if i < n then some (m.read (a + i)) else none := by
  unfold Memory.readBytes
  split <;> rename_i h <;> simp [h]

/-- Two memories that agree on a run read the same bytes there. -/
theorem Memory.readBytes_congr {m m' : Memory} {a n : Nat} (h : ∀ i < n, m'.read (a + i) = m.read (a + i)) :
    m'.readBytes a n = m.readBytes a n :=
  List.map_congr_left (fun i hi => h i (List.mem_range.1 hi))

@[simp] theorem Memory.writeBytes_init (m : Memory) (a : Nat) (v : List Byte) : (m.writeBytes a v).init = m.init := by
  induction v generalizing m a with
  | nil => rfl
  | cons b bs ih => exact ih _ _

/-- A read after a run of writes. -/
theorem Memory.read_writeBytes (m : Memory) (a b : Nat) (v : List Byte) :
    (m.writeBytes a v).read b = if a ≤ b then (v[b - a]?).getD (m.read b) else m.read b := by
  induction v generalizing m a with
  | nil => simp [Memory.writeBytes]
  | cons x xs ih =>
    rw [Memory.writeBytes, ih, Memory.read_write]
    rcases Nat.lt_trichotomy a b with h | rfl | h
    · obtain ⟨k, rfl⟩ : ∃ k, b = a + 1 + k := ⟨b - (a + 1), by omega⟩
      have h1 : a + 1 + k - (a + 1) = k := by omega
      have h2 : a + 1 + k - a = k + 1 := by omega
      have h3 : a + 1 + k ≠ a := by omega
      have h4 : a ≤ a + 1 + k := by omega
      simp [h1, h2, h3, h4]
    · simp
    · have h1 : ¬ a + 1 ≤ b := by omega
      have h2 : ¬ a ≤ b := by omega
      have h3 : b ≠ a := by omega
      simp [h1, h2, h3]

/-- A run of writes inside Memory keeps the canonical form. -/
theorem Memory.writeBytes_wf {m : Memory} (a : Nat) (v : List Byte) (h : m.wf) (ha : a + v.length ≤ Config.memSize) :
    (m.writeBytes a v).wf := by
  induction v generalizing m a with
  | nil => exact h
  | cons b bs ih =>
    simp only [List.length_cons] at ha
    exact ih (a + 1) (m.write_wf a b h (by omega)) (by omega)

/-- Outside the run, a run of writes leaves Memory alone. -/
theorem Memory.read_writeBytes_outside (m : Memory) {a b : Nat} {v : List Byte} (h : ¬ (a ≤ b ∧ b < a + v.length)) :
    (m.writeBytes a v).read b = m.read b := by
  rw [Memory.read_writeBytes]
  split
  · rw [List.getElem?_eq_none (by omega)]; rfl
  · rfl

/-- Inside the run, what was written is read back. -/
theorem Memory.readBytes_writeBytes (m : Memory) (a : Nat) (v : List Byte) :
    (m.writeBytes a v).readBytes a v.length = v := by
  apply List.ext_getElem?
  intro i
  rw [Memory.readBytes_getElem?]
  split
  · rename_i h
    rw [Memory.read_writeBytes, if_pos (by omega)]
    simp [h]
  · rename_i h; rw [List.getElem?_eq_none (by omega)]

/-! ### The memory block interface -/

/-- Everything `MemRead` can do. -/
theorem memRead_ok_iff {m : Memory} {a n : Nat} {d : List Byte} :
    memRead m a n = .ok d ↔ a + n ≤ Config.memSize ∧ d = m.readBytes a n := by
  unfold memRead
  split <;> simp_all [eq_comm]

/-- Everything `MemWrite` can do. -/
theorem memWrite_ok_iff {m m' : Memory} {a : Nat} {v : List Byte} :
    memWrite m a v = .ok m' ↔ a + v.length ≤ Config.memSize ∧ m' = m.writeBytes a v := by
  unfold memWrite
  split <;> simp_all [eq_comm]

/-- Memory right after reset is in canonical form. -/
theorem State.reset_mem_wf : State.reset.mem.wf := ⟨.nil, fun _ h => nomatch h⟩

/-- Reset leaves Memory in canonical form. -/
theorem State.applyReset_mem_wf (s : State) : s.applyReset.mem.wf := ⟨.nil, fun _ h => nomatch h⟩

end Sys2Proof.Machine
end

