-- ==== Sys2Proof/Laws/LineStore.lean ====
section
/-! SUPPORT. The line store as an array of sets of ways (R25), and what its lookups can answer (R132, R134, R136). -/

namespace Sys2Proof.Machine

/-! ### Sets and ways -/

theorem setLines_getElem? (sh : Shape) (lines : List Line) (set w : Nat) :
    (setLines sh lines set)[w]? = if w < sh.numWays then lines[lineIndex sh set w]? else none := by
  unfold setLines lineIndex
  rw [List.getElem?_take]
  split <;> simp

/-- A way a set holds is a line of the store at its linear index. -/
theorem getElem?_of_setLines {sh : Shape} {lines : List Line} {set w : Nat} {l : Line}
    (h : (setLines sh lines set)[w]? = some l) : w < sh.numWays ∧ lines[lineIndex sh set w]? = some l := by
  rw [setLines_getElem?] at h
  split at h
  · exact ⟨‹_›, h⟩
  · cases h

theorem mem_of_mem_setLines {sh : Shape} {lines : List Line} {set : Nat} {l : Line} (h : l ∈ setLines sh lines set) :
    l ∈ lines := List.mem_of_mem_drop (List.mem_of_mem_take h)

theorem setLines_length {sh : Shape} {lines : List Line} {set : Nat} (hl : lines.length = sh.numSets * sh.numWays)
    (hs : set < sh.numSets) : (setLines sh lines set).length = sh.numWays := by
  have h : (set + 1) * sh.numWays ≤ sh.numSets * sh.numWays := Nat.mul_le_mul_right _ hs
  rw [Nat.add_mul, Nat.one_mul] at h
  simp only [setLines, List.length_take, List.length_drop, hl]
  omega

/-- The linear index of a (set, way) inside the store. -/
theorem lineIndex_lt {sh : Shape} {set w : Nat} (hs : set < sh.numSets) (hw : w < sh.numWays) :
    lineIndex sh set w < sh.numSets * sh.numWays := by
  have h : (set + 1) * sh.numWays ≤ sh.numSets * sh.numWays := Nat.mul_le_mul_right _ hs
  rw [Nat.add_mul, Nat.one_mul] at h
  unfold lineIndex
  omega

/-- Different (set, way) pairs have different linear indices. -/
theorem lineIndex_inj {sh : Shape} {set set' w w' : Nat} (hw : w < sh.numWays) (hw' : w' < sh.numWays)
    (h : lineIndex sh set w = lineIndex sh set' w') : set = set' ∧ w = w' := by
  unfold lineIndex at h
  have hs : set = set' := by
    have h1 : (set * sh.numWays + w) / sh.numWays = set := by
      rw [Nat.mul_comm, Nat.mul_add_div (by omega), Nat.div_eq_of_lt hw, Nat.add_zero]
    have h2 : (set' * sh.numWays + w') / sh.numWays = set' := by
      rw [Nat.mul_comm, Nat.mul_add_div (by omega), Nat.div_eq_of_lt hw', Nat.add_zero]
    rw [← h1, h, h2]
  subst hs
  exact ⟨rfl, by omega⟩

/-- Every line of the store is a way of some set. -/
theorem exists_set_way {sh : Shape} {i : Nat} (h : i < sh.numSets * sh.numWays) :
    ∃ set < sh.numSets, ∃ w < sh.numWays, i = lineIndex sh set w := by
  have hw : 0 < sh.numWays := Nat.pos_of_ne_zero (fun h0 => by simp [h0] at h)
  exact ⟨i / sh.numWays, Nat.div_lt_of_lt_mul (by rwa [Nat.mul_comm] at h), i % sh.numWays, Nat.mod_lt _ hw, by
    simp [lineIndex, Nat.div_add_mod']⟩

/-- Replacing one line changes its set at its way, and no other set. -/
theorem setLines_set {sh : Shape} (lines : List Line) {set set' w : Nat} (l : Line) (hw : w < sh.numWays) :
    setLines sh (lines.set (lineIndex sh set w) l) set'
      = if set' = set then (setLines sh lines set').set w l else setLines sh lines set' := by
  apply List.ext_getElem?
  intro j
  by_cases hj : j < sh.numWays
  · rw [setLines_getElem?, if_pos hj, List.getElem?_set]
    by_cases hs : set' = set
    · subst hs
      rw [if_pos rfl, List.getElem?_set, setLines_getElem?, if_pos hj]
      by_cases hwj : w = j
      · subst hwj
        simp only [↓reduceIte]
        by_cases hin : lineIndex sh set' w < lines.length
        · have : w < (setLines sh lines set').length := by
            by_contra hcon
            have := List.getElem?_eq_none (Nat.le_of_not_lt hcon)
            rw [setLines_getElem?, if_pos hj, List.getElem?_eq_getElem hin] at this
            cases this
          simp [hin, this]
        · have : ¬ w < (setLines sh lines set').length := by
            intro hcon
            have h2 := List.getElem?_eq_getElem hcon
            rw [setLines_getElem?, if_pos hj, List.getElem?_eq_none (by omega)] at h2
            cases h2
          simp [hin, this]
      · rw [if_neg (fun h => hwj (lineIndex_inj hw hj h).2), if_neg hwj]
    · rw [if_neg (fun h => hs (lineIndex_inj hw hj h).1.symm), if_neg hs, setLines_getElem?, if_pos hj]
  · rw [setLines_getElem?, if_neg hj]
    split
    · rw [List.getElem?_set]
      rw [if_neg (by omega), setLines_getElem?, if_neg hj]
    · rw [setLines_getElem?, if_neg hj]

/-! ### The lookups -/

/-- Everything `find` can answer when it finds a way (R132). -/
theorem find_some {ways : List Line} {t : Word} {w : Nat} (h : find ways t = some w) :
    ∃ l, ways[w]? = some l ∧ l.valid = true ∧ l.tag = t := by
  obtain ⟨hw, hp, -⟩ := List.findIdx?_eq_some_iff_getElem.1 h
  simp only [Bool.and_eq_true, beq_iff_eq] at hp
  exact ⟨ways[w], List.getElem?_eq_getElem hw, hp⟩

/-- When `find` finds no way, no valid way holds the tag (R132). -/
theorem find_none {ways : List Line} {t : Word} (h : find ways t = none) {l : Line} (hl : l ∈ ways)
    (hv : l.valid = true) : l.tag ≠ t := by
  have := List.findIdx?_eq_none_iff.1 h l hl
  simpa [hv] using this

/-- Everything `first_free` can answer when it finds a way (R134): an invalid way, all lower ways valid. -/
theorem firstFree_some {ways : List Line} {w : Nat} (h : firstFree ways = some w) :
    ∃ l, ways[w]? = some l ∧ l.valid = false ∧ ∀ j < w, ∀ l', ways[j]? = some l' → l'.valid = true := by
  obtain ⟨hw, hp, hlt⟩ := List.findIdx?_eq_some_iff_getElem.1 h
  refine ⟨ways[w], List.getElem?_eq_getElem hw, by simpa using hp, fun j hj l' hl' => ?_⟩
  have hjlen : j < ways.length := by omega
  rw [List.getElem?_eq_getElem hjlen] at hl'
  cases hl'
  simpa using hlt j hj

/-- When `first_free` finds no way, every way is valid (R134). -/
theorem firstFree_none {ways : List Line} (h : firstFree ways = none) {l : Line} (hl : l ∈ ways) : l.valid = true := by
  simpa using List.findIdx?_eq_none_iff.1 h l hl

/-- The scan of `lru_victim` answers the way it started with or one it scanned. -/
theorem lruScan_lt (ways : List Line) (best w : Nat) (ts : Word) (h : best < w) :
    lruScan best ts w ways < w + ways.length := by
  induction ways generalizing best w ts with
  | nil => simpa [lruScan] using h
  | cons l ls ih =>
    simp only [lruScan, List.length_cons]
    split
    · have := ih w (w + 1) l.timestamp (by omega); omega
    · have := ih best (w + 1) ts (by omega); omega

/-- `lru_victim` always answers a way of the set (R136). -/
theorem lruVictim_lt {ways : List Line} (h : ways ≠ []) : lruVictim ways < ways.length := by
  cases ways with
  | nil => exact absurd rfl h
  | cons l ls =>
    have := lruScan_lt ls 0 1 l.timestamp (by omega)
    simp only [lruVictim, List.length_cons]; omega

end Sys2Proof.Machine
end

