-- ==== Sys2Proof/Laws/Access.lean ====
section
/-! SUPPORT. What the shared operations of LOAD and STORE can do, said once each (R153 to R161, R181). -/

namespace Sys2Proof.Machine

/-! ### Lines -/

theorem lineAt_ok_iff {sh : Shape} {set w : Nat} {s : State} {l : Line} :
    lineAt sh set w s = .ok l ↔ s.lines[lineIndex sh set w]? = some l := by
  unfold lineAt
  split <;> simp_all

theorem lineAt_eq {sh : Shape} {set w : Nat} {s : State} {l : Line} (h : s.lines[lineIndex sh set w]? = some l) :
    lineAt sh set w s = .ok l := lineAt_ok_iff.2 h

/-- The line that `setLine` replaced, where there was one. -/
theorem State.setLine_getElem?_self {s : State} {sh : Shape} {set w : Nat} {l : Line} (l' : Line)
    (h : s.lines[lineIndex sh set w]? = some l) : (s.setLine sh set w l').lines[lineIndex sh set w]? = some l' := by
  have := (List.getElem?_eq_some_iff.1 h).1
  simp [this]

/-- Every other line is as it was. -/
theorem State.setLine_getElem?_other {s : State} {sh : Shape} {set w i : Nat} (l' : Line)
    (h : i ≠ lineIndex sh set w) : (s.setLine sh set w l').lines[i]? = s.lines[i]? := by
  simp [Ne.symm h]

@[simp] theorem State.setLine_setLine (s : State) (sh : Shape) (set w : Nat) (l l' : Line) :
    (s.setLine sh set w l).setLine sh set w l' = s.setLine sh set w l' := by
  simp [State.setLine]

theorem State.setLine_setMem (s : State) (sh : Shape) (set w : Nat) (l : Line) (m : Memory) :
    (s.setLine sh set w l).setMem m = (s.setMem m).setLine sh set w l := rfl

/-! ### The operations inside an access -/

/-- Everything `touch` can do (R155). -/
theorem touch_ok_iff {sh : Shape} {set w : Nat} {s t : State} :
    touch sh set w s = .ok t
      ↔ ∃ l, s.lines[lineIndex sh set w]? = some l ∧ t = s.setLine sh set w (l.stamp s.cycles) := by
  unfold touch lineAt
  cases s.lines[lineIndex sh set w]? <;> simp [eq_comm]

/-- Everything `fill` can do (R160). -/
theorem fill_ok_iff {sh : Shape} {set w bs : Nat} {tg : Word} {s t : State} :
    fill sh set w tg bs s = .ok t
      ↔ ∃ l, s.lines[lineIndex sh set w]? = some l ∧ bs + sh.blockBytes ≤ Config.memSize
          ∧ t = s.setLine sh set w (l.filled tg s.cycles (s.mem.readBytes bs sh.blockBytes)) := by
  unfold fill lineAt memRead
  cases s.lines[lineIndex sh set w]? with
  | none => simp
  | some l => by_cases h : bs + sh.blockBytes ≤ Config.memSize <;> simp [h, eq_comm]

/-- Everything a write-back can do (R158). -/
theorem writeBack_ok_iff {sh : Shape} {set w : Nat} {s t : State} :
    writeBack sh set w s = .ok t
      ↔ ∃ l, s.lines[lineIndex sh set w]? = some l ∧ l.data.length = sh.blockBytes
          ∧ blockAddressOf sh l.tag.toNat set + l.data.length ≤ Config.memSize
          ∧ t = (s.setMem (s.mem.writeBytes (blockAddressOf sh l.tag.toNat set) l.data)).setLine sh set w l.clearDirty := by
  unfold writeBack lineAt memWrite
  cases s.lines[lineIndex sh set w]? with
  | none => simp
  | some l =>
    by_cases hd : l.data.length = sh.blockBytes
    · by_cases h : blockAddressOf sh l.tag.toNat set + l.data.length ≤ Config.memSize
      · rw [hd] at h
        simp [hd, h, eq_comm]
      · rw [hd] at h
        simp [hd, h]
    · simp [hd]

/-- Eviction of a clean victim changes nothing (R159). -/
theorem evict_clean {sh : Shape} {set w : Nat} {s : State} {l : Line} (h : s.lines[lineIndex sh set w]? = some l)
    (hd : l.dirty = false) : evict sh set w s = .ok s := by
  simp [evict, lineAt, h, hd]

/-- Eviction of a dirty victim is its write-back (R158). -/
theorem evict_dirty {sh : Shape} {set w : Nat} {s : State} {l : Line} (h : s.lines[lineIndex sh set w]? = some l)
    (hd : l.dirty = true) : evict sh set w s = writeBack sh set w s := by
  simp [evict, lineAt, h, hd]

/-- Everything `readWord` can do (R163). -/
theorem readWord_ok_iff {sh : Shape} {set w o : Nat} {s : State} {v : Word} :
    readWord sh set w o s = .ok v
      ↔ ∃ l, s.lines[lineIndex sh set w]? = some l ∧ unbe32 (slice l.data o 4) = some v := by
  unfold readWord lineAt
  cases s.lines[lineIndex sh set w]? with
  | none => simp
  | some l =>
    cases h : unbe32 (slice l.data o 4) <;> simp [h]

theorem readWord_eq {sh : Shape} {set w o : Nat} {s : State} {l : Line} {v : Word}
    (hl : s.lines[lineIndex sh set w]? = some l) (hv : unbe32 (slice l.data o 4) = some v) :
    readWord sh set w o s = .ok v := readWord_ok_iff.2 ⟨l, hl, hv⟩

/-- Everything `writeWord` can do (R184, R186). -/
theorem writeWord_ok_iff {sh : Shape} {set w o : Nat} {v : Word} {s t : State} :
    writeWord sh set w o v s = .ok t
      ↔ ∃ l, s.lines[lineIndex sh set w]? = some l ∧ o + 4 ≤ l.data.length
          ∧ t = s.setLine sh set w (l.putWord o v).markDirty := by
  unfold writeWord lineAt
  cases s.lines[lineIndex sh set w]? with
  | none => simp
  | some l => by_cases h : o + 4 ≤ l.data.length <;> simp [h, eq_comm]

theorem writeWord_eq {sh : Shape} {set w o : Nat} {s : State} {l : Line} (v : Word)
    (hl : s.lines[lineIndex sh set w]? = some l) (ho : o + 4 ≤ l.data.length) :
    writeWord sh set w o v s = .ok (s.setLine sh set w (l.putWord o v).markDirty) :=
  writeWord_ok_iff.2 ⟨l, hl, ho, rfl⟩

/-! ### access_line -/

/-- A hit (R155). -/
theorem accessLine_hit {sh : Shape} {set bs w : Nat} {tg : Word} {s : State} {l : Line}
    (hf : find (setLines sh s.lines set) tg = some w) (hl : s.lines[lineIndex sh set w]? = some l) :
    accessLine sh set tg bs s = .ok ⟨.hit, w, s.setLine sh set w (l.stamp s.cycles)⟩ := by
  simp [accessLine, hf, Access.of, touch, lineAt, hl]

/-- A miss with a free way (R156). -/
theorem accessLine_free {sh : Shape} {set bs w : Nat} {tg : Word} {s : State} {l : Line}
    (hf : find (setLines sh s.lines set) tg = none) (hff : firstFree (setLines sh s.lines set) = some w)
    (hl : s.lines[lineIndex sh set w]? = some l) (hb : bs + sh.blockBytes ≤ Config.memSize) :
    accessLine sh set tg bs s
      = .ok ⟨.miss, w, s.setLine sh set w (l.filled tg s.cycles (s.mem.readBytes bs sh.blockBytes))⟩ := by
  simp [accessLine, hf, hff, Access.of, fill, memRead, lineAt, hl, hb]

/-- A miss that evicts a clean victim (R157, R159, R160). -/
theorem accessLine_clean {sh : Shape} {set bs w : Nat} {tg : Word} {s : State} {l : Line}
    (hf : find (setLines sh s.lines set) tg = none) (hff : firstFree (setLines sh s.lines set) = none)
    (hw : lruVictim (setLines sh s.lines set) = w) (hl : s.lines[lineIndex sh set w]? = some l)
    (hd : l.dirty = false) (hb : bs + sh.blockBytes ≤ Config.memSize) :
    accessLine sh set tg bs s
      = .ok ⟨.miss, w, s.setLine sh set w (l.filled tg s.cycles (s.mem.readBytes bs sh.blockBytes))⟩ := by
  simp [accessLine, hf, hff, hw, evict_clean hl hd, Access.of, fill, memRead, lineAt, hl, hb]

/-- A miss that evicts a dirty victim: the write-back, then the fill from the Memory it left (R157, R158, R160). -/
theorem accessLine_dirty {sh : Shape} {set bs w : Nat} {tg : Word} {s : State} {l : Line} {m : Memory}
    (hf : find (setLines sh s.lines set) tg = none) (hff : firstFree (setLines sh s.lines set) = none)
    (hw : lruVictim (setLines sh s.lines set) = w) (hl : s.lines[lineIndex sh set w]? = some l)
    (hd : l.dirty = true) (hlen : l.data.length = sh.blockBytes)
    (hv : blockAddressOf sh l.tag.toNat set + sh.blockBytes ≤ Config.memSize)
    (hm : m = s.mem.writeBytes (blockAddressOf sh l.tag.toNat set) l.data)
    (hb : bs + sh.blockBytes ≤ Config.memSize) :
    accessLine sh set tg bs s
      = .ok ⟨.miss, w,
          (s.setMem m).setLine sh set w (l.clearDirty.filled tg s.cycles (m.readBytes bs sh.blockBytes))⟩ := by
  subst hm
  have hwb : writeBack sh set w s = .ok
      ((s.setMem (s.mem.writeBytes (blockAddressOf sh l.tag.toNat set) l.data)).setLine sh set w l.clearDirty) :=
    writeBack_ok_iff.2 ⟨l, hl, hlen, by rw [hlen]; exact hv, rfl⟩
  have hfl := fill_ok_iff (sh := sh) (set := set) (w := w) (bs := bs) (tg := tg)
    (s := (s.setMem (s.mem.writeBytes (blockAddressOf sh l.tag.toNat set) l.data)).setLine sh set w l.clearDirty)
    (t := ((s.setMem (s.mem.writeBytes (blockAddressOf sh l.tag.toNat set) l.data)).setLine sh set w
      (l.clearDirty.filled tg s.cycles
        ((s.mem.writeBytes (blockAddressOf sh l.tag.toNat set) l.data).readBytes bs sh.blockBytes))))
    |>.2 ⟨l.clearDirty, State.setLine_getElem?_self _ (s := s.setMem _) hl, hb, by simp⟩
  simp [accessLine, hf, hff, hw, evict_dirty hl hd, hwb, hfl, Access.of]

/-- Everything an access that evicts can have done. -/
theorem evict_fill_cases {sh : Shape} {set w bs : Nat} {tg : Word} {s s' t : State} (he : evict sh set w s = .ok s')
    (hf : fill sh set w tg bs s' = .ok t) :
    ∃ l, s.lines[lineIndex sh set w]? = some l ∧ bs + sh.blockBytes ≤ Config.memSize ∧
      ((l.dirty = false ∧ t = s.setLine sh set w (l.filled tg s.cycles (s.mem.readBytes bs sh.blockBytes)))
      ∨ (l.dirty = true ∧ l.data.length = sh.blockBytes
          ∧ blockAddressOf sh l.tag.toNat set + sh.blockBytes ≤ Config.memSize
          ∧ ∃ m, m = s.mem.writeBytes (blockAddressOf sh l.tag.toNat set) l.data
            ∧ t = (s.setMem m).setLine sh set w
                (l.clearDirty.filled tg s.cycles (m.readBytes bs sh.blockBytes)))) := by
  cases hl : s.lines[lineIndex sh set w]? with
  | none => simp [evict, lineAt, hl] at he
  | some l =>
    cases hd : l.dirty with
    | false =>
      rw [evict_clean hl hd] at he
      cases he
      obtain ⟨l', hl', hb, rfl⟩ := fill_ok_iff.1 hf
      rw [hl] at hl'; cases hl'
      exact ⟨l, rfl, hb, .inl ⟨hd, rfl⟩⟩
    | true =>
      rw [evict_dirty hl hd] at he
      obtain ⟨l', hl', hlen, hv, rfl⟩ := writeBack_ok_iff.1 he
      rw [hl] at hl'; cases hl'
      obtain ⟨l'', hl'', hb, rfl⟩ := fill_ok_iff.1 hf
      have hself := State.setLine_getElem?_self l.clearDirty
        (s := s.setMem (s.mem.writeBytes (blockAddressOf sh l.tag.toNat set) l.data)) (by simpa using hl)
      rw [hself] at hl''
      cases hl''
      exact ⟨l, rfl, hb, .inr ⟨hd, hlen, by rw [← hlen]; exact hv, _, rfl, by simp⟩⟩

/-- Everything `access_line` can do (R154, R140): a hit, a miss with a free way, a miss that evicts. -/
theorem accessLine_cases {sh : Shape} {set bs : Nat} {tg : Word} {s : State} {a : Access}
    (h : accessLine sh set tg bs s = .ok a) :
    (∃ l, find (setLines sh s.lines set) tg = some a.way ∧ s.lines[lineIndex sh set a.way]? = some l
        ∧ a.outcome = .hit ∧ a.state = s.setLine sh set a.way (l.stamp s.cycles))
    ∨ (∃ l, find (setLines sh s.lines set) tg = none ∧ s.lines[lineIndex sh set a.way]? = some l
        ∧ firstFree (setLines sh s.lines set) = some a.way
        ∧ a.outcome = .miss ∧ bs + sh.blockBytes ≤ Config.memSize
        ∧ a.state = s.setLine sh set a.way (l.filled tg s.cycles (s.mem.readBytes bs sh.blockBytes)))
    ∨ (∃ l, find (setLines sh s.lines set) tg = none ∧ s.lines[lineIndex sh set a.way]? = some l
        ∧ firstFree (setLines sh s.lines set) = none ∧ a.way = lruVictim (setLines sh s.lines set)
        ∧ a.outcome = .miss ∧ bs + sh.blockBytes ≤ Config.memSize
        ∧ ((l.dirty = false
            ∧ a.state = s.setLine sh set a.way (l.filled tg s.cycles (s.mem.readBytes bs sh.blockBytes)))
          ∨ (l.dirty = true ∧ l.data.length = sh.blockBytes
            ∧ blockAddressOf sh l.tag.toNat set + sh.blockBytes ≤ Config.memSize
            ∧ ∃ m, m = s.mem.writeBytes (blockAddressOf sh l.tag.toNat set) l.data
              ∧ a.state = (s.setMem m).setLine sh set a.way
                  (l.clearDirty.filled tg s.cycles (m.readBytes bs sh.blockBytes))))) := by
  unfold accessLine at h
  split at h
  · rename_i w hf
    cases ht : touch sh set w s with
    | error f => simp [ht, Access.of] at h
    | ok t =>
      obtain ⟨l, hl, rfl⟩ := touch_ok_iff.1 ht
      simp only [ht, Access.of, Except.ok.injEq] at h
      subst h
      exact .inl ⟨l, hf, hl, rfl, rfl⟩
  · rename_i hf
    split at h
    · rename_i w hff
      cases ht : fill sh set w tg bs s with
      | error f => simp [ht, Access.of] at h
      | ok t =>
        obtain ⟨l, hl, hb, rfl⟩ := fill_ok_iff.1 ht
        simp only [ht, Access.of, Except.ok.injEq] at h
        subst h
        exact .inr (.inl ⟨l, hf, hl, hff, rfl, hb, rfl⟩)
    · rename_i hff
      split at h
      · cases h
      · rename_i s' he
        cases ht : fill sh set (lruVictim (setLines sh s.lines set)) tg bs s' with
        | error f => simp [ht, Access.of] at h
        | ok t =>
          simp only [ht, Access.of, Except.ok.injEq] at h
          subst h
          obtain ⟨l, hl, hb, hc⟩ := evict_fill_cases he ht
          exact .inr (.inr ⟨l, hf, hl, hff, rfl, rfl, hb, hc⟩)

/-! ### LOAD and STORE -/

/-- Everything the checks of LOAD and STORE can answer (R253, R252). -/
theorem admitAccess_cases {addr : Word} {s : State} {r : Admission} (h : admitAccess addr s = .ok r) :
    (s.configured = false ∧ r = .rejected .sequenceError)
    ∨ (∃ sh, s.configured = true ∧ s.geometry.shape? = some sh ∧ inBounds sh addr = false
        ∧ r = .rejected .outOfBounds)
    ∨ (∃ sh, s.configured = true ∧ s.geometry.shape? = some sh ∧ inBounds sh addr = true ∧ r = .admitted sh) := by
  unfold admitAccess at h
  split at h
  · split at h
    · cases h
    · rename_i hc _ sh hs
      split at h <;> rename_i hb <;> cases h
      · exact .inr (.inr ⟨sh, hc, hs, hb, rfl⟩)
      · exact .inr (.inl ⟨sh, hc, hs, by simpa using hb, rfl⟩)
  · rename_i hc
    cases h
    exact .inl ⟨by simpa using hc, rfl⟩

theorem admitAccess_admitted {addr : Word} {s : State} {sh : Shape} (hc : s.configured = true)
    (hs : s.geometry.shape? = some sh) (hb : inBounds sh addr = true) :
    admitAccess addr s = .ok (.admitted sh) := by simp [admitAccess, hc, hs, hb]

/-- Everything the work of LOAD can do: a rejection, or an access and the word it read (R153). -/
theorem loadWork_cases {addr : Word} {s : State} {r : Reply} (h : loadWork addr s = .ok r) :
    (s.configured = false ∧ r = reject .sequenceError s)
    ∨ (∃ sh, s.configured = true ∧ s.geometry.shape? = some sh ∧ inBounds sh addr = false
        ∧ r = reject .outOfBounds s)
    ∨ (∃ sh a v, s.configured = true ∧ s.geometry.shape? = some sh ∧ inBounds sh addr = true
        ∧ accessLine sh (setIndex sh addr) (tagReg sh addr) (blockStart sh addr) s = .ok a
        ∧ readWord sh (setIndex sh addr) a.way (wordOffset sh addr) a.state = .ok v
        ∧ r = ⟨account a.outcome a.state, a.outcome.status, .word v⟩) := by
  unfold loadWork at h
  split at h
  · cases h
  · rename_i e ha
    cases h
    rcases admitAccess_cases ha with ⟨hc, he⟩ | ⟨sh, hc, hs, hb, he⟩ | ⟨sh, hc, hs, hb, he⟩
    · cases he; exact .inl ⟨hc, rfl⟩
    · cases he; exact .inr (.inl ⟨sh, hc, hs, hb, rfl⟩)
    · cases he
  · rename_i sh ha
    rcases admitAccess_cases ha with ⟨hc, he⟩ | ⟨sh', hc, hs, hb, he⟩ | ⟨sh', hc, hs, hb, he⟩
    · cases he
    · cases he
    · cases he
      unfold loadAdmitted at h
      split at h
      · cases h
      · rename_i a haL
        split at h
        · cases h
        · rename_i v hv
          cases h
          exact .inr (.inr ⟨_, a, v, hc, hs, hb, haL, hv, rfl⟩)

/-- Everything the work of STORE can do: a rejection, or an access and the word write (R181). -/
theorem storeWork_cases {addr value : Word} {s : State} {r : Reply} (h : storeWork addr value s = .ok r) :
    (s.configured = false ∧ r = reject .sequenceError s)
    ∨ (∃ sh, s.configured = true ∧ s.geometry.shape? = some sh ∧ inBounds sh addr = false
        ∧ r = reject .outOfBounds s)
    ∨ (∃ sh a s', s.configured = true ∧ s.geometry.shape? = some sh ∧ inBounds sh addr = true
        ∧ accessLine sh (setIndex sh addr) (tagReg sh addr) (blockStart sh addr) s = .ok a
        ∧ writeWord sh (setIndex sh addr) a.way (wordOffset sh addr) value a.state = .ok s'
        ∧ r = ⟨account a.outcome s', a.outcome.status, .word value⟩) := by
  unfold storeWork at h
  split at h
  · cases h
  · rename_i e ha
    cases h
    rcases admitAccess_cases ha with ⟨hc, he⟩ | ⟨sh, hc, hs, hb, he⟩ | ⟨sh, hc, hs, hb, he⟩
    · cases he; exact .inl ⟨hc, rfl⟩
    · cases he; exact .inr (.inl ⟨sh, hc, hs, hb, rfl⟩)
    · cases he
  · rename_i sh ha
    rcases admitAccess_cases ha with ⟨hc, he⟩ | ⟨sh', hc, hs, hb, he⟩ | ⟨sh', hc, hs, hb, he⟩
    · cases he
    · cases he
    · cases he
      unfold storeAdmitted at h
      split at h
      · cases h
      · rename_i a haL
        split at h
        · cases h
        · rename_i v hv
          cases h
          exact .inr (.inr ⟨_, a, v, hc, hs, hb, haL, hv, rfl⟩)

/-- A command completed exactly when its work did (R93). -/
theorem complete_next_iff {r : Except Fault Reply} {t : State} : complete r = .next t ↔ ∃ q, r = .ok q ∧ t = q.finish := by
  unfold complete
  split <;> simp [eq_comm]

end Sys2Proof.Machine
end

