-- ==== Sys2Proof/Laws/Operands.lean ====
section
/-! SUPPORT. What a valid geometry gives the address decomposer (R11, R22, R224). -/

namespace Sys2Proof.Machine

/-- `log2` has a value only on a power of two, and that value (R110). -/
theorem log2?_some {n k : Nat} (h : log2? n = some k) : n = 2 ^ k := by
  unfold log2? at h
  split at h
  · cases h; exact Eq.symm ‹_›
  · cases h

/-- The numbers of a shape fit together as R11 and R224 ask. -/
structure Shape.Ok (sh : Shape) : Prop where
  block : sh.blockBytes = 2 ^ sh.offsetBits
  sets : sh.numSets = 2 ^ sh.indexBits
  word : 2 ≤ sh.offsetBits
  fits : sh.offsetBits + sh.indexBits ≤ 32
  ways : 0 < sh.numWays

/-- Everything the derived quantities of a geometry can be (R22). -/
theorem Geometry.shape?_some {g : Geometry} {sh : Shape} (h : g.shape? = some sh) :
    sh.Ok ∧ validGeometry g.blockSizeBytes g.numBlocks g.numWays = true
      ∧ sh.blockBytes = g.blockSizeBytes.toNat ∧ sh.numWays = g.numWays.toNat
      ∧ sh.numSets * sh.numWays = g.numBlocks.toNat := by
  unfold Geometry.shape? at h
  split at h
  · rename_i hv
    split at h
    · rename_i ob ib hob hib
      cases h
      have hv' := hv
      simp only [validGeometry, indexFits, hob, hib, Bool.and_eq_true, decide_eq_true_eq, and_assoc] at hv'
      obtain ⟨h0, hd, -, -, h4, hf, -⟩ := hv'
      have hb := log2?_some hob
      have hs := log2?_some hib
      refine ⟨⟨hb, hs, ?_, hf, by simp only; omega⟩, hv, rfl, rfl, Nat.div_mul_cancel (Nat.dvd_of_mod_eq_zero hd)⟩
      by_contra hc
      simp only at hc
      have : 2 ^ ob ≤ 2 ^ 1 := Nat.pow_le_pow_right (by omega) (by omega)
      omega
    · cases h
  · cases h

/-- The set index of any address names a set (R115). -/
theorem setIndex_lt {sh : Shape} (h : sh.Ok) (addr : Word) : setIndex sh addr < sh.numSets :=
  Nat.mod_lt _ (by rw [h.sets]; exact Nat.two_pow_pos _)

/-- The tag register of an address holds its tag (R28, R116). -/
theorem tagReg_toNat (sh : Shape) (addr : Word) : (tagReg sh addr).toNat = tagOf sh addr := by
  unfold tagReg
  rw [BitVec.toNat_ofNat]
  refine Nat.mod_eq_of_lt (Nat.lt_of_lt_of_le (Nat.mod_lt _ (Nat.two_pow_pos _)) ?_)
  exact Nat.pow_le_pow_right (by omega) (by unfold Shape.tagBits; omega)

/-- An address is in bounds exactly when its block is inside Memory (R62). -/
theorem inBounds_iff {sh : Shape} {addr : Word} :
    inBounds sh addr = true ↔ blockStart sh addr + sh.blockBytes ≤ Config.memSize := by simp [inBounds]

/-! ### Bytes and words -/

/-- Four bytes always make a word (R15). -/
theorem unbe32_of_length {bs : List Byte} (h : bs.length = 4) : ∃ v, unbe32 bs = some v := by
  match bs, h with
  | [b0, b1, b2, b3], _ => exact ⟨_, rfl⟩

@[simp] theorem be32_length (v : Word) : (be32 v).length = 4 := rfl

/-- A slice inside a buffer has its length (R15). -/
theorem slice_length {buf : List Byte} {o n : Nat} (h : o + n ≤ buf.length) : (slice buf o n).length = n := by
  simp only [slice, List.length_take, List.length_drop]; omega

theorem slice_getElem? (buf : List Byte) (o n i : Nat) :
    (slice buf o n)[i]? = if i < n then buf[o + i]? else none := by
  unfold slice
  rw [List.getElem?_take]
  split <;> simp

/-- Splicing inside a buffer keeps its length. -/
theorem splice_length {buf v : List Byte} {o : Nat} (h : o + v.length ≤ buf.length) :
    (splice buf o v).length = buf.length := by
  simp only [splice, List.length_append, List.length_take, List.length_drop]; omega

/-- The bytes of a buffer after a splice: the new ones in their place, the others as before (R184). -/
theorem splice_getElem? {buf v : List Byte} {o : Nat} (h : o + v.length ≤ buf.length) (i : Nat) :
    (splice buf o v)[i]? = if o ≤ i ∧ i < o + v.length then v[i - o]? else buf[i]? := by
  unfold splice
  have hl : (List.take o buf).length = o := by simp; omega
  by_cases h1 : i < o
  · rw [if_neg (by omega), List.append_assoc, List.getElem?_append_left (by omega)]
    simp [h1]
  · by_cases h2 : i < o + v.length
    · rw [if_pos (by omega), List.append_assoc, List.getElem?_append_right (by omega), hl,
        List.getElem?_append_left (by omega)]
    · rw [if_neg (by omega), List.append_assoc, List.getElem?_append_right (by omega), hl,
        List.getElem?_append_right (by omega), List.getElem?_drop]
      congr 1; omega

/-- The word spliced in is the slice read back (R184). -/
theorem slice_splice {buf v : List Byte} {o : Nat} (h : o + v.length ≤ buf.length) :
    slice (splice buf o v) o v.length = v := by
  apply List.ext_getElem?
  intro i
  rw [slice_getElem?, splice_getElem? h]
  split
  · rw [if_pos (by omega)]; congr 1; omega
  · rw [List.getElem?_eq_none (by omega)]

end Sys2Proof.Machine
end

