-- ==== Sys2Proof/Laws/Commands.lean ====
section
/-! SUPPORT. What a command can do, said once: the inversion of `exec` for LOAD and STORE, and of `step`. -/

namespace Sys2Proof.Safety

open Sys2Proof.Machine

/-! ### The way an access uses -/

theorem accessWay_hit {sh : Shape} {s : State} {addr : Word} {w : Nat}
    (hf : find (waysOf sh s addr) (tagReg sh addr) = some w) :
    accessWay sh s addr = w ∧ accessOutcome sh s addr = .hit ∧ writtenBack? sh s addr = none := by
  simp [accessWay, accessOutcome, writtenBack?, hf]

theorem accessWay_free {sh : Shape} {s : State} {addr : Word} {w : Nat}
    (hf : find (waysOf sh s addr) (tagReg sh addr) = none) (hff : firstFree (waysOf sh s addr) = some w) :
    accessWay sh s addr = w ∧ accessOutcome sh s addr = .miss ∧ writtenBack? sh s addr = none := by
  simp [accessWay, accessOutcome, writtenBack?, hf, hff]

theorem accessWay_victim {sh : Shape} {s : State} {addr : Word} {l : Line}
    (hf : find (waysOf sh s addr) (tagReg sh addr) = none) (hff : firstFree (waysOf sh s addr) = none)
    (hl : s.lines[lineIndex sh (setIndex sh addr) (lruVictim (waysOf sh s addr))]? = some l) :
    accessWay sh s addr = lruVictim (waysOf sh s addr) ∧ accessOutcome sh s addr = .miss
      ∧ writtenBack? sh s addr
        = if l.dirty then some (blockAddressOf sh l.tag.toNat (setIndex sh addr)) else none := by
  have hw : accessWay sh s addr = lruVictim (waysOf sh s addr) := by simp [accessWay, hf, hff]
  refine ⟨hw, by simp [accessOutcome, hf], ?_⟩
  simp [writtenBack?, hf, hff, accessIndex, hw, hl]

/-! ### LOAD and STORE -/

/-- The line an access leaves once its block `b` is in place: a STORE writes its word and marks it dirty. -/
theorem exec_access_eq (i : Instr) {addr : Word} (hi : accessAddr? i = some addr) :
    (i = .load addr ∧ storeValue? i = none) ∨ ∃ v, i = .store addr v ∧ storeValue? i = some v := by
  cases i <;> simp_all [accessAddr?, storeValue?]

/-- Everything a LOAD or STORE can do: it is rejected and changes nothing but the response, or it accesses the line
`l`, which becomes `L`, with Memory becoming `m`. `b` is the line with its block in place, before a STORE's word. -/
theorem exec_access_cases {i : Instr} {addr : Word} {s t : State} (hi : accessAddr? i = some addr)
    (h : exec i s = .next t) :
    (∃ e, (e = .sequenceError ∧ s.configured = false
          ∨ e = .outOfBounds ∧ s.configured = true ∧ ∃ sh, s.geometry.shape? = some sh ∧ inBounds sh addr = false)
        ∧ t = s.respond e .none)
    ∨ ∃ (sh : Shape) (l b L : Line) (m : Memory) (v : Word),
        s.configured = true ∧ s.geometry.shape? = some sh ∧ inBounds sh addr = true
        ∧ s.lines[accessIndex sh s addr]? = some l
        ∧ ((find (waysOf sh s addr) (tagReg sh addr) = some (accessWay sh s addr)
              ∧ accessOutcome sh s addr = .hit ∧ writtenBack? sh s addr = none ∧ m = s.mem ∧ b = l.stamp s.cycles)
          ∨ (find (waysOf sh s addr) (tagReg sh addr) = none ∧ accessOutcome sh s addr = .miss
              ∧ ((firstFree (waysOf sh s addr) = some (accessWay sh s addr)
                  ∨ (firstFree (waysOf sh s addr) = none ∧ accessWay sh s addr = lruVictim (waysOf sh s addr)
                    ∧ l.dirty = false))
                ∧ writtenBack? sh s addr = none ∧ m = s.mem
                ∧ b = l.filled (tagReg sh addr) s.cycles (m.readBytes (blockStart sh addr) sh.blockBytes)
              ∨ firstFree (waysOf sh s addr) = none ∧ accessWay sh s addr = lruVictim (waysOf sh s addr)
                ∧ l.dirty = true ∧ l.data.length = sh.blockBytes
                ∧ blockAddressOf sh l.tag.toNat (setIndex sh addr) + sh.blockBytes ≤ Config.memSize
                ∧ writtenBack? sh s addr = some (blockAddressOf sh l.tag.toNat (setIndex sh addr))
                ∧ m = s.mem.writeBytes (blockAddressOf sh l.tag.toNat (setIndex sh addr)) l.data
                ∧ b = l.clearDirty.filled (tagReg sh addr) s.cycles
                    (m.readBytes (blockStart sh addr) sh.blockBytes))))
        ∧ ((i = .load addr ∧ L = b ∧ unbe32 (slice b.data (wordOffset sh addr) 4) = some v)
          ∨ (i = .store addr v ∧ wordOffset sh addr + 4 ≤ b.data.length
              ∧ L = (b.putWord (wordOffset sh addr) v).markDirty))
        ∧ t = (account (accessOutcome sh s addr)
                ((s.setMem m).setLine sh (setIndex sh addr) (accessWay sh s addr) L)).respond
              (accessOutcome sh s addr).status (.word v) := by
  have key : ∀ {sh : Shape} {a : Access},
      accessLine sh (setIndex sh addr) (tagReg sh addr) (blockStart sh addr) s = .ok a →
      ∃ l b m, s.lines[accessIndex sh s addr]? = some l
        ∧ a.way = accessWay sh s addr ∧ a.outcome = accessOutcome sh s addr
        ∧ a.state = (s.setMem m).setLine sh (setIndex sh addr) (accessWay sh s addr) b
        ∧ ((find (waysOf sh s addr) (tagReg sh addr) = some (accessWay sh s addr)
              ∧ accessOutcome sh s addr = .hit ∧ writtenBack? sh s addr = none ∧ m = s.mem ∧ b = l.stamp s.cycles)
          ∨ (find (waysOf sh s addr) (tagReg sh addr) = none ∧ accessOutcome sh s addr = .miss
              ∧ ((firstFree (waysOf sh s addr) = some (accessWay sh s addr)
                  ∨ (firstFree (waysOf sh s addr) = none ∧ accessWay sh s addr = lruVictim (waysOf sh s addr)
                    ∧ l.dirty = false))
                ∧ writtenBack? sh s addr = none ∧ m = s.mem
                ∧ b = l.filled (tagReg sh addr) s.cycles (m.readBytes (blockStart sh addr) sh.blockBytes)
              ∨ firstFree (waysOf sh s addr) = none ∧ accessWay sh s addr = lruVictim (waysOf sh s addr)
                ∧ l.dirty = true ∧ l.data.length = sh.blockBytes
                ∧ blockAddressOf sh l.tag.toNat (setIndex sh addr) + sh.blockBytes ≤ Config.memSize
                ∧ writtenBack? sh s addr = some (blockAddressOf sh l.tag.toNat (setIndex sh addr))
                ∧ m = s.mem.writeBytes (blockAddressOf sh l.tag.toNat (setIndex sh addr)) l.data
                ∧ b = l.clearDirty.filled (tagReg sh addr) s.cycles
                    (m.readBytes (blockStart sh addr) sh.blockBytes)))) := by
    intro sh a ha
    rcases accessLine_cases ha with ⟨l, hf, hl, ho, hs⟩ | ⟨l, hf, hl, hff, ho, -, hs⟩
      | ⟨l, hf, hl, hff, hw, ho, -, hs⟩
    · obtain ⟨h1, h2, h3⟩ := accessWay_hit hf
      exact ⟨l, _, s.mem, by rw [accessIndex, h1]; exact hl, h1.symm, by rw [h2, ho], by rw [hs, h1]; rfl,
        .inl ⟨by rw [h1]; exact hf, h2, h3, rfl, rfl⟩⟩
    · obtain ⟨h1, h2, h3⟩ := accessWay_free hf hff
      exact ⟨l, _, s.mem, by rw [accessIndex, h1]; exact hl, h1.symm, by rw [h2, ho], by rw [hs, h1]; rfl,
        .inr ⟨hf, h2, .inl ⟨.inl (by rw [h1]; exact hff), h3, rfl, rfl⟩⟩⟩
    · rw [hw] at hl
      obtain ⟨h1, h2, h3⟩ := accessWay_victim hf hff hl
      rcases hs with ⟨hd, hs⟩ | ⟨hd, hlen, hin, m, hm, hs⟩
      · exact ⟨l, _, s.mem, by rw [accessIndex, h1]; exact hl, by rw [h1, hw]; rfl, by rw [h2, ho],
          by rw [hs, h1, hw]; rfl,
          .inr ⟨hf, h2, .inl ⟨.inr ⟨hff, h1, hd⟩, by rw [h3, hd]; rfl, rfl, rfl⟩⟩⟩
      · exact ⟨l, _, m, by rw [accessIndex, h1]; exact hl, by rw [h1, hw]; rfl, by rw [h2, ho],
          by rw [hs, h1, hw]; rfl,
          .inr ⟨hf, h2, .inr ⟨hff, h1, hd, hlen, hin, by rw [h3, hd]; rfl, hm, rfl⟩⟩⟩
  rcases exec_access_eq i hi with ⟨rfl, -⟩ | ⟨v, rfl, -⟩
  · obtain ⟨q, hq, rfl⟩ := complete_next_iff.1 h
    rcases loadWork_cases hq with ⟨hc, rfl⟩ | ⟨sh, hc, hs, hb, rfl⟩ | ⟨sh, a, v, hc, hs, hb, ha, hr, rfl⟩
    · exact .inl ⟨_, .inl ⟨rfl, hc⟩, rfl⟩
    · exact .inl ⟨_, .inr ⟨rfl, hc, sh, hs, hb⟩, rfl⟩
    · obtain ⟨l, b, m, hl, hw, ho, hst, hcase⟩ := key ha
      obtain ⟨b', hb', hv⟩ := readWord_ok_iff.1 hr
      rw [hst, hw, State.setLine_getElem?_self _ (s := s.setMem m) hl] at hb'
      cases hb'
      exact .inr ⟨sh, l, b, b, m, v, hc, hs, hb, hl, hcase, .inl ⟨rfl, rfl, hv⟩, by rw [ho, hst]; rfl⟩
  · obtain ⟨q, hq, rfl⟩ := complete_next_iff.1 h
    rcases storeWork_cases hq with ⟨hc, rfl⟩ | ⟨sh, hc, hs, hb, rfl⟩ | ⟨sh, a, s', hc, hs, hb, ha, hr, rfl⟩
    · exact .inl ⟨_, .inl ⟨rfl, hc⟩, rfl⟩
    · exact .inl ⟨_, .inr ⟨rfl, hc, sh, hs, hb⟩, rfl⟩
    · obtain ⟨l, b, m, hl, hw, ho, hst, hcase⟩ := key ha
      obtain ⟨b', hb', hlen, rfl⟩ := writeWord_ok_iff.1 hr
      rw [hst, hw, State.setLine_getElem?_self _ (s := s.setMem m) hl] at hb'
      cases hb'
      refine .inr ⟨sh, l, b, _, m, v, hc, hs, hb, hl, hcase, .inr ⟨rfl, hlen, rfl⟩, ?_⟩
      rw [ho, hst, hw, State.setLine_setLine]
      rfl

/-! ### The other commands -/

/-- Everything CONFIGURE can do (R221). -/
theorem exec_configure_cases {s t : State} {bs nb nw : Word} (h : exec (.configure bs nb nw) s = .next t) :
    (s.configured = true ∧ t = s.respond .sequenceError .none)
    ∨ (s.configured = false ∧ validGeometry bs nb nw = false ∧ t = s.respond .configError .none)
    ∨ (s.configured = false ∧ validGeometry bs nb nw = true ∧ t = (s.install bs nb nw).respond .done .none) := by
  change complete (.ok (configureWork bs nb nw s)) = .next t at h
  obtain ⟨q, hq, rfl⟩ := complete_next_iff.1 h
  cases hq
  unfold configureWork
  split
  · exact .inl ⟨‹_›, rfl⟩
  · rename_i hc
    have hc : s.configured = false := by simpa using hc
    split
    · exact .inr (.inr ⟨hc, ‹_›, rfl⟩)
    · rename_i hv; exact .inr (.inl ⟨hc, by simpa using hv, rfl⟩)

/-- STATS, DUMP_MEMORY and DUMP_CACHE write nothing but the response (R205, R230, R235). -/
theorem exec_readOnly {i : Instr} {s t : State} (hi : accessAddr? i = none) (hc : ∀ bs nb nw, i ≠ .configure bs nb nw)
    (h : exec i s = .next t) : ∃ e p, t = s.respond e p := by
  cases i with
  | configure bs nb nw => exact absurd rfl (hc bs nb nw)
  | load addr => cases hi
  | store addr v => cases hi
  | stats =>
    change complete (.ok (statsWork s)) = .next t at h
    obtain ⟨q, hq, rfl⟩ := complete_next_iff.1 h; cases hq; exact ⟨_, _, rfl⟩
  | dumpCache =>
    change complete (.ok (dumpCacheWork s)) = .next t at h
    obtain ⟨q, hq, rfl⟩ := complete_next_iff.1 h; cases hq; exact ⟨_, _, rfl⟩
  | dumpMemory addr n =>
    change complete (.ok (dumpMemoryWork addr n s)) = .next t at h
    obtain ⟨q, hq, rfl⟩ := complete_next_iff.1 h
    cases hq
    unfold dumpMemoryWork
    split <;> exact ⟨_, _, rfl⟩

/-- Everything a step can do: wait, apply reset, reject a reserved request, run a command (R6, R280, R281, R88). -/
theorem step_cases {s t : State} (h : step s = .next t) :
    (s.hostMoves = [] ∧ t = s)
    ∨ (∃ rest, s.fsm = .idle ∧ s.hostMoves = .reset :: rest ∧ t = ({ s with hostMoves := rest } : State).applyReset)
    ∨ (∃ r rest e, s.fsm = .idle ∧ s.hostMoves = .command r :: rest ∧ decode r = .error e
        ∧ t = ({ s with hostMoves := rest } : State).respond .illegalCommand .none)
    ∨ (∃ r rest i, s.fsm = .idle ∧ s.hostMoves = .command r :: rest ∧ decode r = .ok i
        ∧ exec i { s with hostMoves := rest } = .next t) := by
  unfold step fetch at h
  cases hm : s.hostMoves with
  | nil => simp only [hm] at h; cases h; exact .inl ⟨rfl, rfl⟩
  | cons mv rest =>
    by_cases hi : s.fsm = .idle
    · cases mv with
      | reset => simp only [hm, hi, if_true] at h; cases h; exact .inr (.inl ⟨rest, hi, rfl, by rw [hi]⟩)
      | command r =>
        cases hd : decode r with
        | error e =>
          simp only [hm, hi, if_true, hd, complete] at h
          cases h
          exact .inr (.inr (.inl ⟨r, rest, e, hi, rfl, hd, by rw [← hi]; rfl⟩))
        | ok i =>
          simp only [hm, hi, if_true, hd] at h
          exact .inr (.inr (.inr ⟨r, rest, i, hi, rfl, hd, by rw [hi]; exact h⟩))
    · simp [hm, hi] at h

end Sys2Proof.Safety
end

