-- ==== Sys2Proof/Laws/PerInstr.lean ====
section
/-! SUPPORT. The rows of the opcode table, command by command (R85, R86). -/

/-- A command's row: its match word is its opcode number in the `op` field and zeros elsewhere, so that the mask of the
`op` field keeps all of it; the command reads the whole `op` field; the match word is a well-formed request (R86). -/
def Sys2Proof.Laws.TableRow.Statement (i : Sys2Proof.Instr) : Prop :=
  Sys2Proof.rowMatch i = Sys2Proof.mkReq (Sys2Proof.opcodeOf i) 0#32 0#32 0#32
    ∧ Sys2Proof.rowMatch i &&& Sys2Proof.rowMask = Sys2Proof.rowMatch i
    ∧ Sys2Proof.rowMask &&& Sys2Proof.readMask i = Sys2Proof.rowMask
    ∧ Sys2Proof.reqWellFormed (Sys2Proof.rowMatch i) = true

theorem Sys2Proof.Laws.TableRow.configure (blockSizeBytes numBlocks numWays : Sys2Proof.Word) :
    Sys2Proof.Laws.TableRow.Statement (.configure blockSizeBytes numBlocks numWays) := by
  simp only [Sys2Proof.Laws.TableRow.Statement, Sys2Proof.rowMatch, Sys2Proof.readMask, Sys2Proof.opcodeOf]
  decide

theorem Sys2Proof.Laws.TableRow.load (addr : Sys2Proof.Word) : Sys2Proof.Laws.TableRow.Statement (.load addr) := by
  simp only [Sys2Proof.Laws.TableRow.Statement, Sys2Proof.rowMatch, Sys2Proof.readMask, Sys2Proof.opcodeOf]
  decide

theorem Sys2Proof.Laws.TableRow.store (addr value : Sys2Proof.Word) :
    Sys2Proof.Laws.TableRow.Statement (.store addr value) := by
  simp only [Sys2Proof.Laws.TableRow.Statement, Sys2Proof.rowMatch, Sys2Proof.readMask, Sys2Proof.opcodeOf]
  decide

theorem Sys2Proof.Laws.TableRow.stats : Sys2Proof.Laws.TableRow.Statement .stats := by
  simp only [Sys2Proof.Laws.TableRow.Statement, Sys2Proof.rowMatch, Sys2Proof.readMask, Sys2Proof.opcodeOf]
  decide

theorem Sys2Proof.Laws.TableRow.dumpMemory (addr length : Sys2Proof.Word) :
    Sys2Proof.Laws.TableRow.Statement (.dumpMemory addr length) := by
  simp only [Sys2Proof.Laws.TableRow.Statement, Sys2Proof.rowMatch, Sys2Proof.readMask, Sys2Proof.opcodeOf]
  decide

theorem Sys2Proof.Laws.TableRow.dumpCache : Sys2Proof.Laws.TableRow.Statement .dumpCache := by
  simp only [Sys2Proof.Laws.TableRow.Statement, Sys2Proof.rowMatch, Sys2Proof.readMask, Sys2Proof.opcodeOf]
  decide
end

