-- ==== Sys2Proof/Tests/Slice0.lean ====
section
/-! SUPPORT. Tests: each expected value comes from the spec (the table named in the comment) or is worked out by hand from
its rules. The second half shows, for every statement with hypotheses, a concrete state and operands that meet them. -/

namespace Sys2Proof.Tests

open Sys2Proof Sys2Proof.Machine Sys2Proof.Safety

/-! ### Request words -/

/-- The check of WellFormed refuses a word with a reserved `op` (R88) and takes the words of the table. -/
theorem test_reserved_op_is_ill_formed :
    reqWellFormed 0x6000000000000000000000000#100 = false ∧ reqWellFormed 0xF00000000FFFFFFFF00000000#100 = false
      ∧ reqWellFormed 0x5000000000000000000000000#100 = true := by decide

/-- `95_test_vectors.md` B9, and C4 rows 2, 15 and 12: words written out from R84. -/
theorem test_decode_configure_word :
    decode 0x0000000200000001000000002#100 = .ok (.configure 32#32 16#32 2#32) := by decide

theorem test_decode_load_word_junk_ignored :
    decode 0x10000012CFFFFFFFF12345678#100 = .ok (.load 0x12c#32) := by decide

theorem test_decode_store_word :
    decode 0x2FFFFFFFF0000000500000000#100 = .ok (.store 0xffffffff#32 5#32) := by decide

theorem test_decode_stats_word : decode 0x3000000000000000000000000#100 = .ok .stats := by decide

theorem test_decode_dump_memory_word :
    decode 0x400001FF00000001100000000#100 = .ok (.dumpMemory 0x1ff0#32 17#32) := by decide

theorem test_decode_dump_cache_word : decode 0x5000000000000000000000000#100 = .ok .dumpCache := by decide

theorem test_decode_reserved_word :
    decode 0x9123456789ABCDEF012345678#100 = .error (.illegalCommand 9#4) := by decide

/-- B9: the encoder writes the words of the table. -/
theorem test_encode_words :
    encode (.configure 16#32 16#32 2#32) = 0x0000000100000001000000002#100
      ∧ encode (.load 0x12c#32) = 0x10000012C0000000000000000#100
      ∧ encode (.store 0#32 0xdeadbeef#32) = 0x200000000DEADBEEF00000000#100
      ∧ encode .stats = 0x3000000000000000000000000#100
      ∧ encode (.dumpMemory 0x20#32 16#32) = 0x4000000200000001000000000#100
      ∧ encode .dumpCache = 0x5000000000000000000000000#100 := by decide

/-- The opcode table's first row, its 100 bits as a number. -/
theorem test_decode_table_word :
    decodeTableWord 104 0x2000000241122334400000000 = some (.store 0x24#32 0x11223344#32)
      ∧ decodeTableWord 104 0x6000000000000000000000000 = none := by decide

/-- R90's own examples, decimal and hexadecimal. -/
theorem test_parse_text :
    parseCommand "configure(16, 16, 2)".toList = some (.configure 16#32 16#32 2#32)
      ∧ parseCommand "store(0x0, 0xdeadbeef)".toList = some (.store 0#32 0xdeadbeef#32)
      ∧ parseCommand "load(4294967296)".toList = none := by decide

/-! ### Geometry, addresses, bytes, lookups -/

/-- The rows of R228's table. -/
theorem test_valid_geometries :
    validGeometry 16#32 16#32 2#32 = true ∧ validGeometry 16#32 12#32 3#32 = true
      ∧ validGeometry 32#32 6#32 3#32 = true ∧ validGeometry 16#32 16#32 16#32 = true
      ∧ validGeometry 16#32 16#32 1#32 = true ∧ validGeometry 4#32 1#32 1#32 = true
      ∧ validGeometry 65536#32 65536#32 1#32 = true ∧ validGeometry 16384#32 1#32 1#32 = true := by decide

theorem test_invalid_geometries :
    validGeometry 12#32 16#32 2#32 = false ∧ validGeometry 16#32 16#32 3#32 = false
      ∧ validGeometry 16#32 12#32 2#32 = false ∧ validGeometry 16#32 16#32 0#32 = false
      ∧ validGeometry 0#32 16#32 2#32 = false ∧ validGeometry 16#32 0#32 2#32 = false
      ∧ validGeometry 2#32 16#32 2#32 = false ∧ validGeometry 1#32 4#32 1#32 = false
      ∧ validGeometry 65536#32 131072#32 1#32 = false
      ∧ validGeometry 2147483648#32 2147483648#32 1#32 = false := by decide

/-- B1, geometry (16, 16, 2). -/
theorem test_shape_16_16_2 :
    Geometry.shape? ⟨16#32, 16#32, 2#32⟩ = some ⟨16, 8, 2, 4, 3⟩ ∧ Shape.tagBits ⟨16, 8, 2, 4, 3⟩ = 25 := by decide

theorem test_address_fields :
    tagOf ⟨16, 8, 2, 4, 3⟩ 0x12c#32 = 2 ∧ setIndex ⟨16, 8, 2, 4, 3⟩ 0x12c#32 = 2
      ∧ blockStart ⟨16, 8, 2, 4, 3⟩ 0x12c#32 = 0x120 ∧ wordOffset ⟨16, 8, 2, 4, 3⟩ 0x12f#32 = 12
      ∧ tagOf ⟨16, 8, 2, 4, 3⟩ 0xdeadbeef#32 = 0x1bd5b7d ∧ setIndex ⟨16, 8, 2, 4, 3⟩ 0xdeadbeef#32 = 6
      ∧ inBounds ⟨16, 8, 2, 4, 3⟩ 0x1fff#32 = true ∧ inBounds ⟨16, 8, 2, 4, 3⟩ 0x2000#32 = false
      ∧ blockAddressOf ⟨16, 8, 2, 4, 3⟩ 1 2 = 0xa0 := by decide

/-- B1, geometry (65536, 65536, 1): no tag bits. -/
theorem test_no_tag_bits :
    Geometry.shape? ⟨65536#32, 65536#32, 1#32⟩ = some ⟨65536, 65536, 1, 16, 16⟩
      ∧ tagOf ⟨65536, 65536, 1, 16, 16⟩ 0xdeadbeef#32 = 0
      ∧ setIndex ⟨65536, 65536, 1, 16, 16⟩ 0xdeadbeef#32 = 0xdead
      ∧ blockStart ⟨65536, 65536, 1, 16, 16⟩ 0xdeadbeef#32 = 0xdead0000
      ∧ inBounds ⟨65536, 65536, 1, 16, 16⟩ 0#32 = false := by decide

/-- B2. -/
theorem test_big_endian :
    be32 0xdeadbeef#32 = [0xde#8, 0xad#8, 0xbe#8, 0xef#8]
      ∧ unbe32 [0xa0#8, 0xa1#8, 0xa2#8, 0xa3#8] = some 0xa0a1a2a3#32 := by decide

/-- A line for the lookup tests. -/
def look (valid : Bool) (tag timestamp : Word) : Line := ⟨valid, false, tag, timestamp, []⟩

/-- B3, rows 1, 2, 5 (find), 6, 7, 8 (first_free). -/
theorem test_find_and_first_free :
    find [look true 0#32 200#32, look true 2#32 201#32] 2#32 = some 1
      ∧ find [look true 0#32 200#32, look true 2#32 201#32] 1#32 = none
      ∧ find [look false 0#32 0#32, look false 0#32 0#32] 0#32 = none
      ∧ firstFree [look false 0#32 0#32, look false 0#32 0#32] = some 0
      ∧ firstFree [look true 7#32 0#32, look false 0#32 0#32] = some 1
      ∧ firstFree [look true 7#32 0#32, look true 8#32 100#32] = none := by decide

/-- B3, rows 3, 4, 9, 10, 11: a tie takes the lowest way, and the numbers are compared raw. -/
theorem test_lru_victim :
    lruVictim [look true 0#32 200#32, look true 1#32 100#32] = 1
      ∧ lruVictim [look true 5#32 100#32, look true 6#32 100#32] = 0
      ∧ lruVictim [look true 0#32 0xfffffff0#32, look true 4#32 5#32] = 1
      ∧ lruVictim [look true 0#32 400#32, look true 1#32 100#32, look true 2#32 200#32, look true 3#32 300#32] = 1
      ∧ lruVictim [look true 3#32 12345#32] = 0 := by decide

/-- B6, the wrap rows. -/
theorem test_account_wraps :
    (account .hit { State.reset with hits := 7#32, misses := 9#32, cycles := 0xffffffff#32 }).cycles = 0#32
      ∧ (account .miss { State.reset with hits := 7#32, misses := 9#32, cycles := 0xffffffc0#32 }).cycles = 0x24#32
      ∧ (account .hit { State.reset with hits := 0xffffffff#32, cycles := 5#32 }).hits = 0#32 := by decide

/-! ### One step of each command -/

/-- A block with no host moves, MEM_INIT all zero but for the listed bytes. -/
def block (g : Geometry) (lines : List Line) (cells : List Host.Cell) (hits misses cycles : Word) : State where
  configured := true
  geometry := g
  lines := lines
  cycles := cycles
  hits := hits
  misses := misses
  mem := ⟨cells, []⟩
  fsm := .idle
  hostMoves := []
  response := none

/-- The block before CONFIGURE. -/
def fresh : State := { block ⟨0#32, 0#32, 0#32⟩ [] [] 0#32 0#32 0#32 with configured := false }

/-- The part of an outcome a test looks at. -/
def seen {α : Type} (f : State → α) (o : Host.Outcome State Fault Refusal) : Option α :=
  match o with
  | .next t => some (f t)
  | .fault _ => none
  | .refused _ => none

/-- B7 and C4 rows 6 and 13: the priority of the errors of CONFIGURE (R258). -/
theorem test_configure_errors :
    seen (fun t => t.response) (exec (.configure 12#32 16#32 2#32) fresh) = some (some ⟨.configError, .none⟩)
      ∧ seen (fun t => t.response) (exec (.configure 12#32 16#32 2#32) { fresh with configured := true })
        = some (some ⟨.sequenceError, .none⟩) := by decide

/-- R41: what CONFIGURE(4, 2, 1) leaves: two lines of four zero bytes. -/
theorem test_configure_lines :
    seen (fun t => (t.configured, t.lines, t.response)) (exec (.configure 4#32 2#32 1#32) fresh)
      = some (true, [⟨false, false, 0#32, 0#32, [0#8, 0#8, 0#8, 0#8]⟩, ⟨false, false, 0#32, 0#32, [0#8, 0#8, 0#8, 0#8]⟩],
          some ⟨.done, .none⟩) := by decide

/-- Two ways of one set of blocks of 8 bytes; way 0 holds block 0 dirty, way 1 holds block 1 clean and was used last. -/
def dirtyPair : State :=
  block ⟨8#32, 2#32, 2#32⟩
    [⟨true, true, 0#32, 0#32, [0#8, 0#8, 0#8, 0#8, 0xde#8, 0xad#8, 0xbe#8, 0xef#8]⟩,
      ⟨true, false, 1#32, 100#32, [8#8, 9#8, 10#8, 11#8, 12#8, 13#8, 14#8, 15#8]⟩]
    [(8, 8#8), (9, 9#8), (10, 10#8), (11, 11#8), (12, 12#8), (13, 13#8), (14, 14#8), (15, 15#8), (16, 16#8), (17, 17#8),
      (18, 18#8), (19, 19#8)] 0#32 2#32 200#32

/-- The same two ways, way 0 used last: the victim is the clean way 1. -/
def cleanVictim : State :=
  { dirtyPair with
    hits := 1#32
    cycles := 201#32
    lines := [⟨true, true, 0#32, 200#32, [0#8, 0#8, 0#8, 0#8, 0xde#8, 0xad#8, 0xbe#8, 0xef#8]⟩,
      ⟨true, false, 1#32, 100#32, [8#8, 9#8, 10#8, 11#8, 12#8, 13#8, 14#8, 15#8]⟩] }

/-- The same set before block 1 was loaded: way 1 is free. -/
def oneFree : State :=
  { dirtyPair with
    misses := 1#32
    cycles := 100#32
    lines := [⟨true, true, 0#32, 0#32, [0#8, 0#8, 0#8, 0#8, 0xde#8, 0xad#8, 0xbe#8, 0xef#8]⟩, Line.empty 8] }

/-- The same set right after CONFIGURE. -/
def noneValid : State := { dirtyPair with misses := 0#32, cycles := 0#32, lines := [Line.empty 8, Line.empty 8] }

/-- LOAD that evicts a dirty line (R158): block 0 is written back, then block 2 is read; low address bits are ignored. -/
theorem test_load_writes_back :
    seen (fun t => (t.response, t.lines[0]?, t.mem.readBytes 4 4, t.cycles)) (exec (.load 0x13#32) dirtyPair)
      = some (some ⟨.miss, .word 0x10111213#32⟩,
          some ⟨true, false, 2#32, 200#32, [16#8, 17#8, 18#8, 19#8, 0#8, 0#8, 0#8, 0#8]⟩,
          [0xde#8, 0xad#8, 0xbe#8, 0xef#8], 300#32) := by decide

/-- LOAD at the top of Memory and just above it (B4 rows 2 and 4). -/
theorem test_load_top_of_memory :
    seen (fun t => t.response) (exec (.load 0x1fff#32) dirtyPair) = some (some ⟨.miss, .word 0#32⟩)
      ∧ seen (fun t => (t.response, t.cycles)) (exec (.load 0x2000#32) dirtyPair)
        = some (some ⟨.outOfBounds, .none⟩, 200#32) := by decide

/-- STORE that hits (R183): four bytes at the word offset, most significant first; Memory as it was. -/
theorem test_store_hit :
    seen (fun t => (t.response, t.lines[1]?, t.mem.cells.length)) (exec (.store 0xe#32 0x55667788#32) dirtyPair)
      = some (some ⟨.hit, .word 0x55667788#32⟩,
          some ⟨true, true, 1#32, 200#32, [8#8, 9#8, 10#8, 11#8, 0x55#8, 0x66#8, 0x77#8, 0x88#8]⟩, 12) := by decide

/-- STORE that misses fills the block first (R185). -/
theorem test_store_miss_fills :
    seen (fun t => (t.response, t.lines[1]?)) (exec (.store 0x10#32 0x01020304#32) oneFree)
      = some (some ⟨.miss, .word 0x01020304#32⟩,
          some ⟨true, true, 2#32, 100#32, [1#8, 2#8, 3#8, 4#8, 0#8, 0#8, 0#8, 0#8]⟩) := by decide

/-- STATS before and after CONFIGURE (C1 rows 1 and 7's form). -/
theorem test_stats :
    seen (fun t => t.response) (exec .stats fresh) = some (some ⟨.done, .counters 0#32 0#32 0#32⟩)
      ∧ seen (fun t => t.response) (exec .stats cleanVictim)
        = some (some ⟨.done, .counters 1#32 2#32 201#32⟩) := by decide

/-- DUMP_MEMORY reads Memory, not the dirty line (R67). -/
theorem test_dump_memory_is_stale :
    seen (fun t => t.response) (exec (.dumpMemory 6#32 4#32) dirtyPair)
      = some (some ⟨.done, .bytes [0#8, 0#8, 8#8, 9#8]⟩) := by decide

/-- B8: the edges of DUMP_MEMORY. -/
theorem test_dump_memory_edges :
    seen (fun t => t.response) (exec (.dumpMemory 0x2000#32 0#32) fresh) = some (some ⟨.done, .bytes []⟩)
      ∧ seen (fun t => t.response) (exec (.dumpMemory 0x2000#32 1#32) fresh) = some (some ⟨.outOfBounds, .none⟩)
      ∧ seen (fun t => t.response) (exec (.dumpMemory 0x1ff0#32 17#32) fresh) = some (some ⟨.outOfBounds, .none⟩)
      ∧ seen (fun t => t.response) (exec (.dumpMemory 0xffffffff#32 2#32) fresh)
        = some (some ⟨.outOfBounds, .none⟩) := by decide

/-- DUMP_CACHE before CONFIGURE (B8) and after. -/
theorem test_dump_cache :
    seen (fun t => t.response) (exec .dumpCache fresh) = some (some ⟨.done, .lines []⟩)
      ∧ seen (fun t => t.response) (exec .dumpCache noneValid)
        = some (some ⟨.done, .lines [⟨false, false, 0#32, 0#32, List.replicate 8 0#8⟩,
            ⟨false, false, 0#32, 0#32, List.replicate 8 0#8⟩]⟩) := by decide

/-- A step of `withFetchWord` runs the word (C4 row 9: op 6 is rejected). -/
theorem test_step_runs_word :
    seen (fun t => t.response) (step (fresh.withFetchWord 104 0x3000000000000000000000000))
        = some (some ⟨.done, .counters 0#32 0#32 0#32⟩)
      ∧ seen (fun t => t.response) (step (fresh.withFetchWord 104 0x6000000000000000000000000))
        = some (some ⟨.illegalCommand, .none⟩) := by decide

/-! ### Witnesses: states and operands that meet the hypotheses of the statements -/

/-- The shape of the blocks above, and how a concrete configured state is shown to satisfy the invariant. -/
def pair : Shape := ⟨8, 1, 2, 3, 0⟩

theorem inv_of {s : State} {sh : Shape} (hs : s.geometry.shape? = some sh) (hi : s.fsm = .idle) (hm : s.mem.wf)
    (hc : s.configured = true) (hl : LinesOk sh s) (h1 : ValidWaysFirst sh s) (h2 : TagsUnique sh s)
    (h3 : BlocksInside sh s) (h4 : CleanMatchesMemory sh s) : Inv s where
  formed := ⟨hi, hm, fun h => absurd hc (by simp [h]), fun _ => ⟨sh, hs, hl⟩⟩
  cache := fun sh' _ hs' => by rw [hs] at hs'; cases hs'; exact ⟨h1, h2, h3, h4⟩

theorem inv_dirtyPair : Inv dirtyPair :=
  inv_of (sh := pair) (by decide) rfl (by decide) rfl (by decide) (by decide) (by decide) (by decide) (by decide)

theorem inv_cleanVictim : Inv cleanVictim :=
  inv_of (sh := pair) (by decide) rfl (by decide) rfl (by decide) (by decide) (by decide) (by decide) (by decide)

theorem inv_oneFree : Inv oneFree :=
  inv_of (sh := pair) (by decide) rfl (by decide) rfl (by decide) (by decide) (by decide) (by decide) (by decide)

theorem inv_fresh : Inv fresh where
  formed := ⟨rfl, by decide, fun _ => rfl, fun h => absurd h (by decide)⟩
  cache := fun _ h => absurd h (by decide)

/-- A state in which the host is about to present the request word `r`. -/
def asks (s : State) (r : Req) : State := { s with hostMoves := [.command r] }

theorem inv_asks {s : State} (r : Req) (h : Inv s) : Inv (asks s r) where
  formed := ⟨h.formed.idle, h.formed.mem, h.formed.unconfigured, h.formed.configured⟩
  cache := fun sh hc hs => let c := h.cache sh hc hs; ⟨c.first, c.unique, c.inside, c.clean⟩

/-- DecodeOfEncode, at the largest operands. -/
theorem witness_DecodeOfEncode : (Instr.store 0xffffffff#32 0xffffffff#32).wellFormed = true := rfl

/-- DecodingProcedure: a word under each clause, the reserved opcodes at both ends. -/
theorem witness_DecodingProcedure :
    (0x0000000100000001000000002#100 : Req).toNat / 2 ^ 96 = 0
      ∧ (0x10000012C0000000000000000#100 : Req).toNat / 2 ^ 96 = 1
      ∧ (0x200000000DEADBEEF00000000#100 : Req).toNat / 2 ^ 96 = 2
      ∧ (0x3000000000000000000000000#100 : Req).toNat / 2 ^ 96 = 3
      ∧ (0x4000000200000001000000000#100 : Req).toNat / 2 ^ 96 = 4
      ∧ (0x5FFFFFFFFFFFFFFFFFFFFFFFF#100 : Req).toNat / 2 ^ 96 = 5
      ∧ 5 < (0x6000000000000000000000000#100 : Req).toNat / 2 ^ 96
      ∧ 5 < (0xFFFFFFFFFFFFFFFFFFFFFFFFF#100 : Req).toNat / 2 ^ 96 := by decide

/-- IgnoredFieldsAreMaskedOut: two words of one LOAD that differ in the ignored fields (B9). -/
theorem witness_IgnoredFieldsAreMaskedOut :
    decode 0x10000012C0000000000000000#100 = .ok (.load 0x12c#32)
      ∧ (0x10000012C0000000000000000#100 : Req) &&& readMask (.load 0x12c#32)
        = 0x10000012CFFFFFFFF12345678#100 &&& readMask (.load 0x12c#32)
      ∧ (0x10000012CFFFFFFFF12345678#100 : Req) &&& rowMask = rowMatch (.load 0x12c#32) := by decide

/-- PackedLineUnpacks: a line of one word. -/
theorem witness_PackedLineUnpacks :
    (Line.mk true true 0xffffffff#32 1#32 [0xde#8, 0xad#8, 0xbe#8, 0xef#8]).data.length = 4 := rfl

/-- StepRunsDecodedCommand. -/
theorem witness_StepRunsDecodedCommand :
    (asks fresh 0x3000000000000000000000000#100).fsm = .idle
      ∧ (asks fresh 0x3000000000000000000000000#100).hostMoves = [.command 0x3000000000000000000000000#100]
      ∧ decode 0x3000000000000000000000000#100 = .ok .stats := by decide

/-- StepRejectsReservedOpcode, the first and the last reserved opcode. -/
theorem witness_StepRejectsReservedOpcode :
    (asks fresh 0x6000000000000000000000000#100).fsm = .idle
      ∧ (asks fresh 0x6000000000000000000000000#100).hostMoves = [.command 0x6000000000000000000000000#100]
      ∧ 5 < (0x6000000000000000000000000#100 : Req).toNat / 2 ^ 96
      ∧ (asks fresh 0xF00000000FFFFFFFF00000000#100).hostMoves = [.command 0xF00000000FFFFFFFF00000000#100]
      ∧ 5 < (0xF00000000FFFFFFFF00000000#100 : Req).toNat / 2 ^ 96 := by decide

/-- StepWithoutCommand: no move; a move in the middle of a command. -/
theorem witness_StepWithoutCommand :
    fresh.hostMoves = [] ∧ ({ fresh with hostMoves := [.reset], fsm := .check } : State).hostMoves ≠ []
      ∧ ({ fresh with hostMoves := [.reset], fsm := .check } : State).fsm ≠ .idle := by decide

/-- StepAppliesReset, with a dirty line to lose. -/
theorem witness_StepAppliesReset :
    ({ dirtyPair with hostMoves := [.reset] } : State).fsm = .idle
      ∧ ({ dirtyPair with hostMoves := [.reset] } : State).hostMoves = [.reset] := by decide

/-- LogarithmOnlyOfPowersOfTwo: 0 and 3 are no powers of two. -/
theorem witness_LogarithmOnlyOfPowersOfTwo : (∀ k, 0 ≠ 2 ^ k) ∧ (∀ k, 3 ≠ 2 ^ k) :=
  ⟨fun k => (Nat.two_pow_pos k).ne, fun k => by cases k <;> omega⟩

/-- DerivedFieldWidths, AddressFieldsAreBitFields, BlockStartOfAddress, LowAddressBitsIgnored: a geometry of no index
bits, and one of no tag bits. -/
theorem witness_DerivedFieldWidths :
    Geometry.shape? ⟨8#32, 2#32, 2#32⟩ = some pair
      ∧ Geometry.shape? ⟨65536#32, 65536#32, 1#32⟩ = some ⟨65536, 65536, 1, 16, 16⟩ := by decide

/-- AddressRecomposes, at the largest tag and set. -/
theorem witness_AddressRecomposes :
    Geometry.shape? ⟨16#32, 16#32, 2#32⟩ = some ⟨16, 8, 2, 4, 3⟩ ∧ 0x1ffffff < 2 ^ Shape.tagBits ⟨16, 8, 2, 4, 3⟩
      ∧ 7 < 8 := by decide

/-- WordsAreBigEndian: a slice that ends where the buffer ends. -/
theorem witness_WordsAreBigEndian : 1 + 2 ≤ [1#8, 2#8, 3#8].length ∧ 1 < 2 := by decide

/-- FindAnswersLowestMatch: a match behind a way that does not match. -/
theorem witness_FindAnswersLowestMatch :
    find [look false 2#32 0#32, look true 2#32 1#32] 2#32 = some 1
      ∧ [look false 2#32 0#32, look true 2#32 1#32][0]? = some (look false 2#32 0#32) := by decide

/-- FirstFreeAnswersLowestInvalid: a free way behind a valid one. -/
theorem witness_FirstFreeAnswersLowestInvalid :
    firstFree [look true 2#32 0#32, look false 2#32 1#32] = some 1
      ∧ [look true 2#32 0#32, look false 2#32 1#32][0]? = some (look true 2#32 0#32) := by decide

/-- LruVictimHasSmallestTimestamp: not empty, and two sets of ways with equal timestamps. -/
theorem witness_LruVictimHasSmallestTimestamp :
    [look true 0#32 200#32, look true 1#32 100#32] ≠ []
      ∧ [look true 0#32 200#32, look true 1#32 100#32].map (fun l => l.timestamp)
        = [look true 7#32 200#32, look false 7#32 100#32].map (fun l => l.timestamp) := by decide

/-- AccessTakesOneOfThreePaths: one access along each path. -/
theorem witness_AccessTakesOneOfThreePaths :
    (∃ a, accessLine pair 0 1#32 8 dirtyPair = .ok a ∧ find (setLines pair dirtyPair.lines 0) 1#32 = some 1)
      ∧ (∃ a, accessLine pair 0 2#32 16 oneFree = .ok a ∧ find (setLines pair oneFree.lines 0) 2#32 = none
        ∧ firstFree (setLines pair oneFree.lines 0) = some 1)
      ∧ (∃ a, accessLine pair 0 2#32 16 dirtyPair = .ok a ∧ find (setLines pair dirtyPair.lines 0) 2#32 = none
        ∧ firstFree (setLines pair dirtyPair.lines 0) = none) :=
  ⟨⟨_, rfl, by decide⟩, ⟨_, rfl, by decide⟩, ⟨_, rfl, by decide⟩⟩

/-- ConfigureOutcomes and the rejections of CONFIGURE: one state and one geometry under each clause. -/
theorem witness_ConfigureOutcomes :
    dirtyPair.configured = true ∧ fresh.configured = false ∧ validGeometry 2#32 16#32 2#32 = false
      ∧ validGeometry 4#32 1#32 1#32 = true := by decide

/-- LoadHitCompletes and StoreHitCompletes. -/
theorem witness_LoadHitCompletes :
    Formed dirtyPair ∧ dirtyPair.configured = true ∧ dirtyPair.geometry.shape? = some pair
      ∧ inBounds pair 15#32 = true ∧ find (waysOf pair dirtyPair 15#32) (tagReg pair 15#32) = some 1 :=
  ⟨inv_dirtyPair.formed, by decide⟩

/-- LoadMissTakesFreeWay and StoreMissTakesFreeWay, with the last block of Memory. -/
theorem witness_LoadMissTakesFreeWay :
    Formed oneFree ∧ oneFree.configured = true ∧ oneFree.geometry.shape? = some pair
      ∧ inBounds pair 0x1fff#32 = true ∧ find (waysOf pair oneFree 0x1fff#32) (tagReg pair 0x1fff#32) = none
      ∧ firstFree (waysOf pair oneFree 0x1fff#32) = some 1 :=
  ⟨inv_oneFree.formed, by decide⟩

/-- LoadMissReplacesCleanVictim and StoreMissReplacesCleanVictim. -/
theorem witness_LoadMissReplacesCleanVictim :
    Formed cleanVictim ∧ cleanVictim.configured = true ∧ cleanVictim.geometry.shape? = some pair
      ∧ inBounds pair 16#32 = true ∧ find (waysOf pair cleanVictim 16#32) (tagReg pair 16#32) = none
      ∧ firstFree (waysOf pair cleanVictim 16#32) = none
      ∧ (waysOf pair cleanVictim 16#32)[lruVictim (waysOf pair cleanVictim 16#32)]?
        = some ⟨true, false, 1#32, 100#32, [8#8, 9#8, 10#8, 11#8, 12#8, 13#8, 14#8, 15#8]⟩ :=
  ⟨inv_cleanVictim.formed, by decide⟩

/-- LoadMissWritesBackDirtyVictim and StoreMissWritesBackDirtyVictim. -/
theorem witness_LoadMissWritesBackDirtyVictim :
    Inv dirtyPair ∧ dirtyPair.configured = true ∧ dirtyPair.geometry.shape? = some pair
      ∧ inBounds pair 16#32 = true ∧ find (waysOf pair dirtyPair 16#32) (tagReg pair 16#32) = none
      ∧ firstFree (waysOf pair dirtyPair 16#32) = none
      ∧ (waysOf pair dirtyPair 16#32)[lruVictim (waysOf pair dirtyPair 16#32)]?
        = some ⟨true, true, 0#32, 0#32, [0#8, 0#8, 0#8, 0#8, 0xde#8, 0xad#8, 0xbe#8, 0xef#8]⟩ :=
  ⟨inv_dirtyPair, by decide⟩

/-- RejectionConditions: each clause at its boundary, the last address in bounds and the first one out. -/
theorem witness_RejectionConditions :
    fresh.configured = false ∧ dirtyPair.configured = true ∧ validGeometry 12#32 16#32 2#32 = false
      ∧ dirtyPair.geometry.shape? = some pair ∧ Config.memSize < blockStart pair 0x2000#32 + pair.blockBytes
      ∧ ¬(Config.memSize < blockStart pair 0x1fff#32 + pair.blockBytes)
      ∧ Config.memSize < (0x1ff0#32 : Word).toNat + (17#32 : Word).toNat := by decide

/-- ErrorsOfEachCommand and RejectionChangesNothing: each error is answered somewhere. -/
theorem witness_ErrorsOfEachCommand :
    (∃ t, exec (.configure 12#32 16#32 2#32) fresh = .next t ∧ t.response = some ⟨.configError, .none⟩)
      ∧ (∃ t, exec (.configure 4#32 1#32 1#32) dirtyPair = .next t ∧ t.response = some ⟨.sequenceError, .none⟩)
      ∧ (∃ t, exec (.load 0#32) fresh = .next t ∧ t.response = some ⟨.sequenceError, .none⟩)
      ∧ (∃ t, exec (.store 0x2000#32 1#32) dirtyPair = .next t ∧ t.response = some ⟨.outOfBounds, .none⟩)
      ∧ (∃ t, exec (.dumpMemory 0x2000#32 1#32) fresh = .next t ∧ t.response = some ⟨.outOfBounds, .none⟩)
      ∧ Status.outOfBounds.isError = true :=
  ⟨⟨_, rfl, by decide⟩, ⟨_, rfl, by decide⟩, ⟨_, rfl, by decide⟩, ⟨_, rfl, by decide⟩, ⟨_, rfl, by decide⟩, by decide⟩

/-- DumpMemoryReturnsBytes: the last range inside Memory, the first outside. -/
theorem witness_DumpMemoryReturnsBytes :
    (0x1ff0#32 : Word).toNat + (16#32 : Word).toNat ≤ Config.memSize
      ∧ (0x2000#32 : Word).toNat + (0#32 : Word).toNat ≤ Config.memSize
      ∧ Config.memSize < (0x1ff0#32 : Word).toNat + (17#32 : Word).toNat
      ∧ Config.memSize < (0xffffffff#32 : Word).toNat + (2#32 : Word).toNat := by decide

/-- FrameOfCommandsThatDoNotAccess, and DumpCacheReturnsLines on a configured and an unconfigured block. -/
theorem witness_FrameOfCommandsThatDoNotAccess :
    accessAddr? (.configure 4#32 1#32 1#32) = none ∧ Completes (exec (.configure 4#32 1#32 1#32) fresh)
      ∧ accessAddr? .dumpCache = none ∧ Completes (exec .dumpCache dirtyPair)
      ∧ (∀ bs nb nw, Instr.dumpCache ≠ .configure bs nb nw)
      ∧ dirtyPair.configured = true ∧ fresh.configured = false :=
  ⟨rfl, ⟨_, rfl⟩, rfl, ⟨_, rfl⟩, fun _ _ _ h => (nomatch h), rfl, rfl⟩

/-- FrameOfLoadAndStore: a write-back of one block, bytes and a line outside it. -/
theorem witness_FrameOfLoadAndStore :
    accessAddr? (.load 16#32) = some 16#32 ∧ dirtyPair.geometry.shape? = some pair
      ∧ Completes (exec (.load 16#32) dirtyPair) ∧ writtenBack? pair dirtyPair 16#32 = some 0
      ∧ accessIndex pair dirtyPair 16#32 = 0
      ∧ Completes (exec (.store 16#32 1#32) cleanVictim) ∧ writtenBack? pair cleanVictim 16#32 = none :=
  ⟨by decide, by decide, ⟨_, rfl⟩, by decide, by decide, ⟨_, rfl⟩, by decide⟩

/-- AccountingStep: a hit, a miss and another answer. -/
theorem witness_AccountingStep :
    (∃ t p, exec (.load 0#32) dirtyPair = .next t ∧ t.response = some ⟨.hit, p⟩)
      ∧ (∃ t p, exec (.store 16#32 1#32) dirtyPair = .next t ∧ t.response = some ⟨.miss, p⟩)
      ∧ (∃ t p, exec .stats dirtyPair = .next t ∧ t.response = some ⟨.done, p⟩) :=
  ⟨⟨_, _, rfl, rfl⟩, ⟨_, _, rfl, rfl⟩, ⟨_, _, rfl, rfl⟩⟩

/-- GeometryIsImmutable: a step of a configured block that is not a reset, a CONFIGURE that installs a geometry. -/
theorem witness_GeometryIsImmutable :
    (asks dirtyPair 0x0000000100000001000000002#100).configured = true
      ∧ Completes (step (asks dirtyPair 0x0000000100000001000000002#100))
      ∧ (∀ rest, (asks dirtyPair 0x0000000100000001000000002#100).hostMoves ≠ .reset :: rest)
      ∧ Completes (exec (.configure 4#32 1#32 1#32) fresh) :=
  ⟨rfl, ⟨_, rfl⟩, fun _ h => (nomatch h), ⟨_, rfl⟩⟩

/-- LifecycleOfALine: a free way that is filled, and a victim that changes its tag. -/
theorem witness_LifecycleOfALine :
    (∃ t, exec (.configure 4#32 1#32 1#32) fresh = .next t ∧ t.response = some ⟨.done, .none⟩)
      ∧ (∃ t l l', Formed oneFree ∧ exec (.load 16#32) oneFree = .next t ∧ oneFree.lines[1]? = some l
        ∧ t.lines[1]? = some l' ∧ l.valid = false ∧ l'.valid = true)
      ∧ (∃ t l l', Formed dirtyPair ∧ exec (.load 16#32) dirtyPair = .next t ∧ dirtyPair.lines[0]? = some l
        ∧ t.lines[0]? = some l' ∧ l.valid = true ∧ l'.tag ≠ l.tag) :=
  ⟨⟨_, rfl, rfl⟩, ⟨_, _, _, inv_oneFree.formed, rfl, rfl, rfl, by decide, by decide⟩,
    ⟨_, _, _, inv_dirtyPair.formed, rfl, rfl, rfl, by decide, by decide⟩⟩

/-- DirtyBitRules: a STORE to a clean line, a dirty line under a LOAD that leaves it, a LOAD that evicts it. -/
theorem witness_DirtyBitRules :
    (dirtyPair.configured = true ∧ dirtyPair.geometry.shape? = some pair ∧ inBounds pair 8#32 = true
        ∧ Completes (exec (.store 8#32 1#32) dirtyPair))
      ∧ (∃ t l, exec (.load 8#32) dirtyPair = .next t ∧ t.lines[0]? = some l ∧ l.dirty = true)
      ∧ (∃ t l l', Formed dirtyPair ∧ exec (.load 16#32) dirtyPair = .next t ∧ dirtyPair.lines[0]? = some l
        ∧ t.lines[0]? = some l' ∧ l.dirty = true ∧ l'.dirty = false) :=
  ⟨⟨rfl, by decide, by decide, ⟨_, rfl⟩⟩, ⟨_, _, rfl, rfl, by decide⟩,
    ⟨_, _, _, inv_dirtyPair.formed, rfl, rfl, rfl, by decide, by decide⟩⟩

/-- FormKeptByEveryStep, InvariantKeptByEveryStep and CounterLawKept: a step that evicts a dirty line, a step that
stores, a step that configures. -/
theorem witness_InvariantKeptByEveryStep :
    (Inv (asks dirtyPair 0x1000000100000000000000000#100)
        ∧ Completes (step (asks dirtyPair 0x1000000100000000000000000#100)))
      ∧ (Inv (asks oneFree 0x2000000100000000100000000#100)
        ∧ Completes (step (asks oneFree 0x2000000100000000100000000#100)))
      ∧ (Inv (asks fresh 0x0000000040000000200000001#100)
        ∧ Completes (step (asks fresh 0x0000000040000000200000001#100)))
      ∧ CounterLaw (asks dirtyPair 0x1000000100000000000000000#100) :=
  ⟨⟨inv_asks _ inv_dirtyPair, ⟨_, rfl⟩⟩, ⟨inv_asks _ inv_oneFree, ⟨_, rfl⟩⟩, ⟨inv_asks _ inv_fresh, ⟨_, rfl⟩⟩,
    by decide⟩

/-- TagsStayUnique. -/
theorem witness_TagsStayUnique :
    Formed (asks dirtyPair 0x1000000100000000000000000#100)
      ∧ (asks dirtyPair 0x1000000100000000000000000#100).geometry.shape? = some pair
      ∧ TagsUnique pair (asks dirtyPair 0x1000000100000000000000000#100)
      ∧ ∃ t, step (asks dirtyPair 0x1000000100000000000000000#100) = .next t ∧ t.geometry.shape? = some pair :=
  ⟨(inv_asks _ inv_dirtyPair).formed, by decide, by decide, ⟨_, rfl, by decide⟩⟩

/-- The block with `cycles` at the given value. -/
def atCycles (c : Word) : State := { dirtyPair with cycles := c }

theorem formed_atCycles (c : Word) : Formed (atCycles c) :=
  ⟨inv_dirtyPair.formed.idle, inv_dirtyPair.formed.mem, inv_dirtyPair.formed.unconfigured,
    inv_dirtyPair.formed.configured⟩

theorem formed_asks {s : State} (r : Req) (h : Formed s) : Formed (asks s r) :=
  ⟨h.idle, h.mem, h.unconfigured, h.configured⟩

/-- TimestampsStayDistinct at its boundary: the last miss and the last hit that do not wrap `cycles`, STATS and a
waiting step at the last value of `cycles`, and a reset. -/
theorem witness_TimestampsStayDistinct :
    (∃ t, Formed (asks (atCycles 0xffffff9b#32) 0x1000000100000000000000000#100)
        ∧ StampsFresh (asks (atCycles 0xffffff9b#32) 0x1000000100000000000000000#100)
        ∧ step (asks (atCycles 0xffffff9b#32) 0x1000000100000000000000000#100) = .next t ∧ t.cycles = 0xffffffff#32)
      ∧ (∃ t, Formed (asks (atCycles 0xfffffffe#32) 0x1000000080000000000000000#100)
        ∧ StampsFresh (asks (atCycles 0xfffffffe#32) 0x1000000080000000000000000#100)
        ∧ step (asks (atCycles 0xfffffffe#32) 0x1000000080000000000000000#100) = .next t ∧ t.cycles = 0xffffffff#32)
      ∧ (∃ t, Formed (asks (atCycles 0xffffffff#32) 0x3000000000000000000000000#100)
        ∧ StampsFresh (asks (atCycles 0xffffffff#32) 0x3000000000000000000000000#100)
        ∧ step (asks (atCycles 0xffffffff#32) 0x3000000000000000000000000#100) = .next t ∧ t.cycles = 0xffffffff#32)
      ∧ (StampsFresh (atCycles 0xffffffff#32) ∧ step (atCycles 0xffffffff#32) = .next (atCycles 0xffffffff#32))
      ∧ (Formed { dirtyPair with hostMoves := [.reset] } ∧ StampsFresh { dirtyPair with hostMoves := [.reset] }
        ∧ Completes (step { dirtyPair with hostMoves := [.reset] })) :=
  ⟨⟨_, formed_asks _ (formed_atCycles _), by decide, rfl, by decide⟩,
    ⟨_, formed_asks _ (formed_atCycles _), by decide, rfl, by decide⟩,
    ⟨_, formed_asks _ (formed_atCycles _), by decide, rfl, by decide⟩, ⟨by decide, rfl⟩,
    ⟨inv_dirtyPair.formed.idle, inv_dirtyPair.formed.mem, inv_dirtyPair.formed.unconfigured,
      inv_dirtyPair.formed.configured⟩, by decide, ⟨_, rfl⟩⟩

/-- LruVictimIsTheOldest: way 1 of a full set whose victim is way 0. -/
theorem witness_LruVictimIsTheOldest :
    Formed dirtyPair ∧ dirtyPair.configured = true ∧ dirtyPair.geometry.shape? = some pair ∧ StampsFresh dirtyPair
      ∧ 0 < pair.numSets ∧ firstFree (setLines pair dirtyPair.lines 0) = none
      ∧ (setLines pair dirtyPair.lines 0)[1]?
        = some ⟨true, false, 1#32, 100#32, [8#8, 9#8, 10#8, 11#8, 12#8, 13#8, 14#8, 15#8]⟩
      ∧ 1 ≠ lruVictim (setLines pair dirtyPair.lines 0) :=
  ⟨inv_dirtyPair.formed, by decide⟩

/-- EveryCommandCompletes, before CONFIGURE and with a dirty line to evict. -/
theorem witness_EveryCommandCompletes : Inv fresh ∧ Inv dirtyPair := ⟨inv_fresh, inv_dirtyPair⟩

/-- LoadKeepsTheView: a LOAD that evicts, the view of a byte of the evicted block and of the new one. -/
theorem witness_LoadKeepsTheView :
    Inv dirtyPair ∧ dirtyPair.configured = true ∧ dirtyPair.geometry.shape? = some pair
      ∧ Completes (exec (.load 16#32) dirtyPair) ∧ inBounds pair 16#32 = true ∧ inBounds pair 4#32 = true
      ∧ view pair dirtyPair 4#32 = some 0xde#8 ∧ view pair dirtyPair 17#32 = some 17#8 :=
  ⟨inv_dirtyPair, rfl, by decide, ⟨_, rfl⟩, by decide⟩

/-- StoreChangesOneWordOfTheView and StoreLeavesItsBlockOfMemory: a byte of the word stored to, one outside. -/
theorem witness_StoreChangesOneWordOfTheView :
    Inv dirtyPair ∧ dirtyPair.configured = true ∧ dirtyPair.geometry.shape? = some pair ∧ inBounds pair 16#32 = true
      ∧ Completes (exec (.store 16#32 1#32) dirtyPair) ∧ inBounds pair 19#32 = true ∧ inBounds pair 20#32 = true :=
  ⟨inv_dirtyPair, rfl, by decide, by decide, ⟨_, rfl⟩, by decide⟩

/-- StoreThenLoadReturnsValue: another byte of the same word. -/
theorem witness_StoreThenLoadReturnsValue :
    Formed dirtyPair ∧ dirtyPair.configured = true ∧ dirtyPair.geometry.shape? = some pair
      ∧ inBounds pair 16#32 = true ∧ Completes (exec (.store 16#32 1#32) dirtyPair)
      ∧ (19#32 : Word).toNat / 4 = (16#32 : Word).toNat / 4 :=
  ⟨inv_dirtyPair.formed, rfl, by decide, by decide, ⟨_, rfl⟩, by decide⟩

/-- AccessedBlockIsResident and WriteBackReachesMemory. -/
theorem witness_WriteBackReachesMemory :
    Formed dirtyPair ∧ dirtyPair.configured = true ∧ accessAddr? (.load 16#32) = some 16#32
      ∧ dirtyPair.geometry.shape? = some pair ∧ inBounds pair 16#32 = true
      ∧ Completes (exec (.load 16#32) dirtyPair) ∧ writtenBack? pair dirtyPair 16#32 = some 0 :=
  ⟨inv_dirtyPair.formed, rfl, by decide, by decide, by decide, ⟨_, rfl⟩, by decide⟩

/-- The controller in state `q` of a command, with way `w`. -/
def inState (q : Fsm) (i : Instr) (s : State) (w : Nat) : Handler := ⟨{ s with fsm := q }, i, w, .miss, .miss, .none⟩

/-- The controller makes a transition. -/
def Ticks (h : Handler) : Prop := ∃ h', h.tick = .ok h'

/-- MissHandlerTransitions, the clauses that need no geometry: IDLE, RESPOND, CHECK of the four commands that do not
access, and CHECK of LOAD and STORE on the block as reset leaves it, which has no shape. -/
theorem witness_MissHandlerTransitions_unconfigured :
    fresh.configured = false ∧ fresh.geometry.shape? = none
      ∧ Ticks (inState .idle (.load 0#32) fresh 0) ∧ Ticks (inState .respond (.load 0#32) fresh 0)
      ∧ (accessAddr? .stats = none ∧ Ticks (inState .check .stats fresh 0))
      ∧ (accessAddr? .dumpCache = none ∧ Ticks (inState .check .dumpCache fresh 0))
      ∧ (accessAddr? (.dumpMemory 0#32 4#32) = none ∧ Ticks (inState .check (.dumpMemory 0#32 4#32) fresh 0))
      ∧ (accessAddr? (.configure 4#32 1#32 1#32) = none ∧ Ticks (inState .check (.configure 4#32 1#32 1#32) fresh 0))
      ∧ (accessAddr? (.load 0#32) = some 0#32 ∧ Ticks (inState .check (.load 0#32) fresh 0))
      ∧ (accessAddr? (.store 0#32 1#32) = some 0#32 ∧ Ticks (inState .check (.store 0#32 1#32) fresh 0)) :=
  ⟨rfl, by decide, ⟨_, rfl⟩, ⟨_, rfl⟩, ⟨rfl, _, rfl⟩, ⟨rfl, _, rfl⟩, ⟨rfl, _, rfl⟩, ⟨rfl, _, rfl⟩, ⟨rfl, _, rfl⟩,
    ⟨rfl, _, rfl⟩⟩

/-- MissHandlerTransitions, the clauses of a configured block: every state of the machine, and each way out of CHECK, LOOKUP and VICTIM. -/
theorem witness_MissHandlerTransitions :
    dirtyPair.geometry.shape? = some pair ∧ Ticks (inState .idle (.load 16#32) dirtyPair 0)
      ∧ (inBounds pair 16#32 = true ∧ Ticks (inState .check (.load 16#32) dirtyPair 0))
      ∧ (inBounds pair 0x2000#32 = false ∧ Ticks (inState .check (.load 0x2000#32) dirtyPair 0))
      ∧ (find (waysOf pair dirtyPair 8#32) (tagReg pair 8#32) = some 1
        ∧ Ticks (inState .lookup (.load 8#32) dirtyPair 0))
      ∧ (find (waysOf pair oneFree 16#32) (tagReg pair 16#32) = none
        ∧ firstFree (waysOf pair oneFree 16#32) = some 1 ∧ Ticks (inState .lookup (.load 16#32) oneFree 0))
      ∧ (firstFree (waysOf pair dirtyPair 16#32) = none ∧ Ticks (inState .lookup (.load 16#32) dirtyPair 0))
      ∧ Ticks (inState .victim (.load 16#32) dirtyPair 0) ∧ Ticks (inState .victim (.load 16#32) cleanVictim 0)
      ∧ Ticks (inState .writeback (.load 16#32) dirtyPair 0) ∧ Ticks (inState .fill (.load 16#32) oneFree 1)
      ∧ Ticks (inState .hitUpdate (.store 8#32 1#32) dirtyPair 1)
      ∧ Ticks (inState .writeWord (.store 8#32 1#32) dirtyPair 1)
      ∧ Ticks (inState .account (.load 8#32) dirtyPair 1) ∧ Ticks (inState .respond (.load 8#32) dirtyPair 1) :=
  ⟨by decide, ⟨_, rfl⟩, ⟨by decide, _, rfl⟩, ⟨by decide, _, rfl⟩, ⟨by decide, _, rfl⟩, ⟨by decide, by decide, _, rfl⟩,
    ⟨by decide, _, rfl⟩, ⟨_, rfl⟩, ⟨_, rfl⟩, ⟨_, rfl⟩, ⟨_, rfl⟩, ⟨_, rfl⟩, ⟨_, rfl⟩, ⟨_, rfl⟩, ⟨_, rfl⟩⟩

/-- MissHandlerRunsTheCommand: the longest command, a STORE that evicts a dirty line. -/
theorem witness_MissHandlerRunsTheCommand : Completes (exec (.store 16#32 1#32) dirtyPair) := ⟨_, rfl⟩

end Sys2Proof.Tests
end

section
/-! The words of `00_scope.md` R15: `be32`, `unbe32` and the slices of a buffer as arithmetic on numbers. -/

namespace Sys2Proof.Machine

/-- The bits of a word from `start` on are its quotient by `2 ^ start`, cut to the width. -/
theorem extractLsb'_eq_ofNat_div (v : Word) (start len : Nat) :
    v.extractLsb' start len = BitVec.ofNat len (v.toNat / 2 ^ start) := by
  rw [BitVec.extractLsb', Nat.shiftRight_eq_div_pow]

/-- The four bytes of a word by division (R15). -/
theorem be32_eq_ofNat_div (v : Word) :
    be32 v = [BitVec.ofNat 8 (v.toNat / 2 ^ 24), BitVec.ofNat 8 (v.toNat / 2 ^ 16),
      BitVec.ofNat 8 (v.toNat / 2 ^ 8), BitVec.ofNat 8 v.toNat] := by
  simp only [be32, extractLsb'_eq_ofNat_div, Nat.pow_zero, Nat.div_one]

/-- The number that four bytes write fits a word, so `unbe32` does not wrap (R15). -/
theorem unbe32_eq_some_toNat (b0 b1 b2 b3 : Byte) :
    ∃ v, unbe32 [b0, b1, b2, b3] = some v
      ∧ v.toNat = b0.toNat * 2 ^ 24 + b1.toNat * 2 ^ 16 + b2.toNat * 2 ^ 8 + b3.toNat := by
  refine ⟨_, rfl, ?_⟩
  have h0 := b0.isLt
  have h1 := b1.isLt
  have h2 := b2.isLt
  have h3 := b3.isLt
  rw [BitVec.toNat_ofNat]
  exact Nat.mod_eq_of_lt (by omega)

/-- A word is read back from its four bytes: they are its digits in base `2 ^ 8` (R15). -/
@[simp] theorem unbe32_be32 (v : Word) : unbe32 (be32 v) = some v := by
  rw [be32_eq_ofNat_div]
  obtain ⟨u, hu, hdigits⟩ := unbe32_eq_some_toNat (BitVec.ofNat 8 (v.toNat / 2 ^ 24))
    (BitVec.ofNat 8 (v.toNat / 2 ^ 16)) (BitVec.ofNat 8 (v.toNat / 2 ^ 8)) (BitVec.ofNat 8 v.toNat)
  have huv : u = v := by
    apply BitVec.eq_of_toNat_eq
    have hv := v.isLt
    rw [hdigits]
    simp only [BitVec.toNat_ofNat]
    omega
  rw [hu, huv]

/-- A byte of a slice is the byte of the buffer at the offset (R15). -/
theorem slice_getElem?_of_lt (buf : List Byte) (o : Nat) {n i : Nat} (h : i < n) :
    (slice buf o n)[i]? = buf[o + i]? := by
  rw [slice_getElem?, if_pos h]

/-- Settles O19: the bytes of a word by division, the number they write without wrapping, the round trip of the two, and
the length and bytes of a slice. -/
theorem wordsAreBigEndian : Obligations.WordsAreBigEndian :=
  ⟨be32_eq_ofNat_div, unbe32_eq_some_toNat, unbe32_be32,
    fun buf o _ h => ⟨slice_length h, fun _ hi => slice_getElem?_of_lt buf o hi⟩⟩

end Sys2Proof.Machine
end

section
/-! The lifecycle of a line (R42): what each command can do to the lines, and which line an access replaces. -/

namespace Sys2Proof.Safety

open Sys2Proof.Machine

/-! ### The line an access uses -/

/-- In a store with all its lines, the way an access uses is a way of the set (R140). -/
theorem accessWay_lt {sh : Shape} {s : State} (hok : sh.Ok) (hlen : s.lines.length = sh.numSets * sh.numWays)
    (addr : Word) : accessWay sh s addr < sh.numWays := by
  unfold accessWay
  split
  · next w hf =>
    obtain ⟨l, hl, -, -⟩ := find_some hf
    exact (getElem?_of_setLines hl).1
  · split
    · next w hff =>
      obtain ⟨l, hl, -, -⟩ := firstFree_some hff
      exact (getElem?_of_setLines hl).1
    · have hways : (waysOf sh s addr).length = sh.numWays := setLines_length hlen (setIndex_lt hok addr)
      have hne : waysOf sh s addr ≠ [] := List.ne_nil_of_length_pos (by rw [hways]; exact hok.ways)
      exact hways ▸ lruVictim_lt hne

/-- The accessed line of the store is the accessed way of its set. -/
theorem waysOf_accessWay {sh : Shape} {s : State} {addr : Word} (hw : accessWay sh s addr < sh.numWays) :
    (waysOf sh s addr)[accessWay sh s addr]? = s.lines[accessIndex sh s addr]? := by
  rw [waysOf, setLines_getElem?, if_pos hw, accessIndex]

/-! ### What a command can do to the lines -/

/-- What an access makes of the line `l` it uses (R42, R140): a hit keeps its block; a miss installs a block in the free
way, or in the way of the LRU victim of a full set. -/
inductive AccessedLine (sh : Shape) (s : State) (addr : Word) (l L : Line) : Prop where
  | hit (old : l.valid = true) (new : L.valid = true) (tag : L.tag = l.tag)
  | free (miss : find (waysOf sh s addr) (tagReg sh addr) = none)
      (way : firstFree (waysOf sh s addr) = some (accessWay sh s addr)) (old : l.valid = false) (new : L.valid = true)
  | victim (miss : find (waysOf sh s addr) (tagReg sh addr) = none) (full : firstFree (waysOf sh s addr) = none)
      (way : accessWay sh s addr = lruVictim (waysOf sh s addr)) (old : l.valid = true) (new : L.valid = true)

/-- A LOAD or STORE leaves every line as it was, or replaces the line it uses and no other (R155 to R157). -/
theorem exec_access_lines {i : Instr} {addr : Word} {s t : State} (hF : Formed s) (hi : accessAddr? i = some addr)
    (h : exec i s = .next t) :
    t.lines = s.lines
    ∨ ∃ (sh : Shape) (l L : Line), s.geometry.shape? = some sh ∧ s.lines[accessIndex sh s addr]? = some l
        ∧ t.lines = s.lines.set (accessIndex sh s addr) L ∧ AccessedLine sh s addr l L := by
  rcases exec_access_cases hi h with ⟨e, -, rfl⟩ | ⟨sh, l, b, L, m, v, hc, hs, -, hl, hpath, hword, rfl⟩
  · exact .inl rfl
  · refine .inr ⟨sh, l, L, hs, hl, by simp [accessIndex], ?_⟩
    have hword : L.valid = b.valid ∧ L.tag = b.tag := by
      rcases hword with ⟨-, rfl, -⟩ | ⟨-, -, rfl⟩
      · exact ⟨rfl, rfl⟩
      · exact ⟨rfl, rfl⟩
    obtain ⟨hv, htag⟩ := hword
    obtain ⟨sh', hs', hlen, -⟩ := hF.configured hc
    cases hs.symm.trans hs'
    have hway := (waysOf_accessWay (accessWay_lt (Geometry.shape?_some hs).1 hlen addr)).trans hl
    have hfull (hff : firstFree (waysOf sh s addr) = none) : l.valid = true :=
      firstFree_none hff (List.mem_of_getElem? hway)
    rcases hpath with ⟨hf, -, -, -, rfl⟩
      | ⟨hf, -, ⟨hff | ⟨hff, hlru, -⟩, -, -, rfl⟩ | ⟨hff, hlru, -, -, -, -, -, rfl⟩⟩
    · obtain ⟨l₁, hl₁, hvalid, -⟩ := find_some hf
      cases hway.symm.trans hl₁
      exact .hit hvalid (hv.trans hvalid) htag
    · obtain ⟨l₁, hl₁, hinvalid, -⟩ := firstFree_some hff
      cases hway.symm.trans hl₁
      exact .free hf hff hinvalid hv
    · exact .victim hf hff hlru (hfull hff) hv
    · exact .victim hf hff hlru (hfull hff) hv

/-- A command that does not access keeps the lines, except for a CONFIGURE of a block that has none (R221). -/
theorem exec_nonAccess_lines {i : Instr} {s t : State} (hF : Formed s) (hi : accessAddr? i = none)
    (h : exec i s = .next t) : t.lines = s.lines ∨ s.lines = [] := by
  by_cases hcfg : ∃ bs nb nw, i = .configure bs nb nw
  · obtain ⟨bs, nb, nw, rfl⟩ := hcfg
    rcases exec_configure_cases h with ⟨-, rfl⟩ | ⟨-, -, rfl⟩ | ⟨hc, -, -⟩
    · exact .inl rfl
    · exact .inl rfl
    · exact .inr (hF.unconfigured hc)
  · obtain ⟨e, p, rfl⟩ := exec_readOnly hi (fun bs nb nw he => hcfg ⟨bs, nb, nw, he⟩) h
    exact .inl rfl

/-- Every line is invalid after a CONFIGURE that answers DONE (R41). -/
theorem configure_done_lines_invalid {s t : State} {bs nb nw : Word} (h : exec (.configure bs nb nw) s = .next t)
    (hd : t.response = some ⟨.done, .none⟩) : ∀ l ∈ t.lines, l.valid = false := by
  rcases exec_configure_cases h with ⟨-, rfl⟩ | ⟨-, -, rfl⟩ | ⟨-, -, rfl⟩
  · cases hd
  · cases hd
  · intro l hl
    rw [State.respond_lines, State.install_lines] at hl
    rw [List.eq_of_mem_replicate hl]
    rfl

/-- The line at index `k` is as it was after a command, or it is the line an access used. -/
theorem exec_line_cases {i : Instr} {s t : State} {k : Nat} {l l' : Line} (hF : Formed s) (h : exec i s = .next t)
    (hl : s.lines[k]? = some l) (hl' : t.lines[k]? = some l') :
    l' = l
    ∨ ∃ (addr : Word) (sh : Shape), accessAddr? i = some addr ∧ s.geometry.shape? = some sh
        ∧ k = accessIndex sh s addr ∧ AccessedLine sh s addr l l' := by
  have hkept (he : t.lines[k]? = s.lines[k]?) : l' = l := Option.some.inj (hl'.symm.trans (he.trans hl))
  cases hi : accessAddr? i with
  | none =>
    rcases exec_nonAccess_lines hF hi h with hsame | hnil
    · exact .inl (hkept (by rw [hsame]))
    · simp [hnil] at hl
  | some addr =>
    rcases exec_access_lines hF hi h with hsame | ⟨sh, l₀, L, hs, hl₀, ht, hL⟩
    · exact .inl (hkept (by rw [hsame]))
    · by_cases hk : k = accessIndex sh s addr
      · subst hk
        cases hl₀.symm.trans hl
        rw [ht, List.getElem?_set_self (List.getElem?_eq_some_iff.1 hl).1] at hl'
        cases hl'
        exact .inr ⟨addr, sh, rfl, hs, rfl, hL⟩
      · exact .inl (hkept (by rw [ht, List.getElem?_set_ne (Ne.symm hk)]))

/-- Settles O43: CONFIGURE creates invalid lines, and of all commands only a LOAD or STORE that misses changes `valid`
or the tag of a line, of the free way or of the LRU victim. -/
theorem lifecycleOfALine : Obligations.LifecycleOfALine := by
  refine ⟨fun s t bs nb nw => configure_done_lines_invalid, fun i s t k l l' hF h hl hl' => ?_⟩
  rcases exec_line_cases hF h hl hl' with rfl | ⟨addr, sh, hi, hs, hk, hL⟩
  · exact ⟨id, fun hinv hv => absurd hv (by simp [hinv]), fun _ hne => absurd rfl hne⟩
  · cases hL with
    | hit old new tag =>
      exact ⟨fun _ => new, fun hinv => absurd old (by simp [hinv]), fun _ hne => absurd tag hne⟩
    | free miss way old new =>
      exact ⟨fun _ => new, fun _ _ => ⟨addr, sh, hi, hs, hk, miss, way⟩, fun hv => absurd hv (by simp [old])⟩
    | victim miss full way old new =>
      exact ⟨fun _ => new, fun hinv => absurd old (by simp [hinv]),
        fun _ _ => ⟨addr, sh, hi, hs, hk, miss, full, way⟩⟩

end Sys2Proof.Safety
end

section
/-! Addresses need no alignment (R55): a LOAD or STORE sees of its address only the word that holds it, since the words
of four bytes cut a block evenly. -/

namespace Sys2Proof.Machine

/-! ### The words of a block -/

/-- A block is a positive number of whole words (R11). -/
theorem Shape.Ok.blockBytes_eq_words {sh : Shape} (hok : sh.Ok) : ∃ n, 0 < n ∧ sh.blockBytes = 4 * n := by
  refine ⟨2 ^ (sh.offsetBits - 2), Nat.two_pow_pos _, ?_⟩
  rw [hok.block, show 4 = 2 ^ 2 from rfl, ← Nat.pow_add, Nat.add_sub_cancel' hok.word]

/-- The block number of an address is its quotient by the block size (R114). -/
theorem blockNumber_eq_div {sh : Shape} (hok : sh.Ok) (addr : Word) :
    blockNumber sh addr = addr.toNat / sh.blockBytes := by
  rw [blockNumber, Nat.shiftRight_eq_div_pow, hok.block]

/-- A block starts at its number times the block size (R118). -/
theorem blockStart_eq_mul {sh : Shape} (hok : sh.Ok) (addr : Word) :
    blockStart sh addr = sh.blockBytes * blockNumber sh addr := by
  rw [blockNumber_eq_div hok, blockStart]
  have hdiv := Nat.div_add_mod addr.toNat sh.blockBytes
  omega

/-- In a block of `n` words the word offset of an address is four times the number of its word (R119). -/
theorem wordOffset_eq_mul {sh : Shape} {n : Nat} (hn : sh.blockBytes = 4 * n) (addr : Word) :
    wordOffset sh addr = 4 * (addr.toNat / 4 % n) := by
  have haligned : addr.toNat - addr.toNat % 4 = 4 * (addr.toNat / 4) := by omega
  rw [wordOffset, haligned, hn, Nat.mul_mod_mul_left]

/-- The word offset is a multiple of four (R55). -/
theorem wordOffset_mod_four {sh : Shape} (hok : sh.Ok) (addr : Word) : wordOffset sh addr % 4 = 0 := by
  obtain ⟨n, -, hn⟩ := hok.blockBytes_eq_words
  rw [wordOffset_eq_mul hn, Nat.mul_mod_right]

/-- The aligned word of an address ends inside its block (R55). -/
theorem wordOffset_add_four_le {sh : Shape} (hok : sh.Ok) (addr : Word) :
    wordOffset sh addr + 4 ≤ sh.blockBytes := by
  obtain ⟨n, hpos, hn⟩ := hok.blockBytes_eq_words
  have hlt : addr.toNat / 4 % n < n := Nat.mod_lt _ hpos
  rw [wordOffset_eq_mul hn]
  omega

/-- The aligned word of an address stands at its word offset in its block (R119). -/
theorem blockStart_add_wordOffset {sh : Shape} (hok : sh.Ok) (addr : Word) :
    blockStart sh addr + wordOffset sh addr = addr.toNat - addr.toNat % 4 := by
  obtain ⟨n, -, hn⟩ := hok.blockBytes_eq_words
  have hle := Nat.mod_le addr.toNat sh.blockBytes
  have hoffset : addr.toNat % sh.blockBytes = addr.toNat % 4 + wordOffset sh addr := by
    rw [wordOffset_eq_mul hn, hn, Nat.mod_mul]
  rw [blockStart]
  omega

/-! ### Two addresses of one word -/

section SameWord

variable {a b : Word} (hab : a.toNat / 4 = b.toNat / 4)
include hab

theorem blockNumber_eq_of_sameWord {sh : Shape} (hok : sh.Ok) : blockNumber sh a = blockNumber sh b := by
  obtain ⟨n, -, hn⟩ := hok.blockBytes_eq_words
  rw [blockNumber_eq_div hok, blockNumber_eq_div hok, hn, ← Nat.div_div_eq_div_mul, ← Nat.div_div_eq_div_mul, hab]

theorem setIndex_eq_of_sameWord {sh : Shape} (hok : sh.Ok) : setIndex sh a = setIndex sh b := by
  rw [setIndex, setIndex, blockNumber_eq_of_sameWord hab hok]

theorem tagReg_eq_of_sameWord {sh : Shape} (hok : sh.Ok) : tagReg sh a = tagReg sh b := by
  rw [tagReg, tagReg, tagOf, tagOf, blockNumber_eq_of_sameWord hab hok]

theorem blockStart_eq_of_sameWord {sh : Shape} (hok : sh.Ok) : blockStart sh a = blockStart sh b := by
  rw [blockStart_eq_mul hok, blockStart_eq_mul hok, blockNumber_eq_of_sameWord hab hok]

theorem wordOffset_eq_of_sameWord {sh : Shape} (hok : sh.Ok) : wordOffset sh a = wordOffset sh b := by
  obtain ⟨n, -, hn⟩ := hok.blockBytes_eq_words
  rw [wordOffset_eq_mul hn, wordOffset_eq_mul hn, hab]

theorem inBounds_eq_of_sameWord {sh : Shape} (hok : sh.Ok) : inBounds sh a = inBounds sh b := by
  rw [inBounds, inBounds, blockStart_eq_of_sameWord hab hok]

/-- The checks answer alike for the addresses of one word, in every state (R253, R62). -/
theorem admitAccess_eq_of_sameWord (s : State) : admitAccess a s = admitAccess b s := by
  cases hs : s.geometry.shape? with
  | none => simp only [admitAccess, hs]
  | some sh =>
    have hok : sh.Ok := (Geometry.shape?_some hs).1
    simp only [admitAccess, hs, inBounds_eq_of_sameWord hab hok]

theorem loadAdmitted_eq_of_sameWord {sh : Shape} (hok : sh.Ok) (s : State) :
    loadAdmitted sh a s = loadAdmitted sh b s := by
  rw [loadAdmitted, setIndex_eq_of_sameWord hab hok, tagReg_eq_of_sameWord hab hok,
    blockStart_eq_of_sameWord hab hok, wordOffset_eq_of_sameWord hab hok, loadAdmitted]

theorem storeAdmitted_eq_of_sameWord {sh : Shape} (hok : sh.Ok) (value : Word) (s : State) :
    storeAdmitted sh a value s = storeAdmitted sh b value s := by
  rw [storeAdmitted, setIndex_eq_of_sameWord hab hok, tagReg_eq_of_sameWord hab hok,
    blockStart_eq_of_sameWord hab hok, wordOffset_eq_of_sameWord hab hok, storeAdmitted]

end SameWord

/-! ### LOAD and STORE -/

/-- The checks admit an access only in the shape of a valid geometry (R253). -/
theorem ok_of_admitAccess_admitted {addr : Word} {s : State} {sh : Shape}
    (h : admitAccess addr s = .ok (.admitted sh)) : sh.Ok := by
  rcases admitAccess_cases h with ⟨-, he⟩ | ⟨sh', -, -, -, he⟩ | ⟨sh', -, hs, -, he⟩
  · cases he
  · cases he
  · cases he
    exact (Geometry.shape?_some hs).1

/-- LOAD does the same for every address of a word, in every state (R55). -/
theorem exec_load_eq_of_sameWord {a b : Word} (hab : a.toNat / 4 = b.toNat / 4) (s : State) :
    exec (.load a) s = exec (.load b) s := by
  have hwork : loadWork a s = loadWork b s := by
    rw [loadWork, loadWork, admitAccess_eq_of_sameWord hab]
    split
    · rfl
    · rfl
    · next sh hadm => exact loadAdmitted_eq_of_sameWord hab (ok_of_admitAccess_admitted hadm) s
  simp only [exec, execLoad, hwork]

/-- STORE does the same for every address of a word, in every state (R55). -/
theorem exec_store_eq_of_sameWord {a b : Word} (hab : a.toNat / 4 = b.toNat / 4) (value : Word) (s : State) :
    exec (.store a value) s = exec (.store b value) s := by
  have hwork : storeWork a value s = storeWork b value s := by
    rw [storeWork, storeWork, admitAccess_eq_of_sameWord hab]
    split
    · rfl
    · rfl
    · next sh hadm => exact storeAdmitted_eq_of_sameWord hab (ok_of_admitAccess_admitted hadm) value s
  simp only [exec, execStore, hwork]

/-- Byte 0 of the word that an address accesses lies in the same word (R55). -/
theorem sameWord_wordByte_zero (addr : Word) : addr.toNat / 4 = (Safety.wordByte addr 0).toNat / 4 := by
  have hlt := addr.isLt
  rw [Safety.wordByte, BitVec.toNat_ofNat, Nat.mod_eq_of_lt (by omega)]
  omega

/-- Settles O18: an address and its aligned word are two addresses of one word, which LOAD and STORE do not tell apart;
and a block is a whole number of words. -/
theorem lowAddressBitsIgnored : Obligations.LowAddressBitsIgnored := by
  refine ⟨fun s addr value => ?_, fun g sh addr hs => ?_⟩
  · have hword := sameWord_wordByte_zero addr
    exact ⟨exec_load_eq_of_sameWord hword s, exec_store_eq_of_sameWord hword value s⟩
  · have hok : sh.Ok := (Geometry.shape?_some hs).1
    have haligned : blockStart sh addr % sh.blockBytes = 0 := by
      rw [blockStart_eq_mul hok, Nat.mul_mod_right]
    exact ⟨wordOffset_mod_four hok addr, wordOffset_add_four_le hok addr, blockStart_add_wordOffset hok addr,
      haligned⟩

end Sys2Proof.Machine
end

section
/-! The decoding procedure of request words (R84 to R89): the fields of a word as digits of a number, the command that a
word with a given opcode stands for, and what the masks of the opcode table keep of a word. -/

namespace Sys2Proof

/-! ### The fields of a request word -/

/-- The top field of a request word needs no cutting to width (R84). -/
theorem opField_toNat (r : Req) : (opField r).toNat = r.toNat / 2 ^ 96 := by
  have hr := r.isLt
  rw [opField, BitVec.extractLsb'_toNat, Nat.shiftRight_eq_div_pow]
  exact Nat.mod_eq_of_lt (by omega)

theorem aField_eq_ofNat_div (r : Req) : aField r = BitVec.ofNat 32 (r.toNat / 2 ^ 64) := by
  rw [aField, BitVec.extractLsb', Nat.shiftRight_eq_div_pow]

theorem bField_eq_ofNat_div (r : Req) : bField r = BitVec.ofNat 32 (r.toNat / 2 ^ 32) := by
  rw [bField, BitVec.extractLsb', Nat.shiftRight_eq_div_pow]

theorem cField_eq_ofNat (r : Req) : cField r = BitVec.ofNat 32 r.toNat := by
  rw [cField, BitVec.extractLsb', Nat.shiftRight_zero]

/-- Four fields put together do not wrap: they are the digits of the word (R84). -/
theorem mkReq_toNat (op : BitVec 4) (a b c : Word) :
    (mkReq op a b c).toNat = op.toNat * 2 ^ 96 + a.toNat * 2 ^ 64 + b.toNat * 2 ^ 32 + c.toNat := by
  have hop := op.isLt
  have ha := a.isLt
  have hb := b.isLt
  have hc := c.isLt
  rw [mkReq, BitVec.toNat_ofNat]
  exact Nat.mod_eq_of_lt (by omega)

@[simp] theorem opField_mkReq (op : BitVec 4) (a b c : Word) : opField (mkReq op a b c) = op := by
  have ha := a.isLt
  have hb := b.isLt
  have hc := c.isLt
  apply BitVec.eq_of_toNat_eq
  rw [opField_toNat, mkReq_toNat]
  omega

/-- A request word is its four fields put together (R84). -/
theorem mkReq_fields (r : Req) : mkReq (opField r) (aField r) (bField r) (cField r) = r := by
  apply BitVec.eq_of_toNat_eq
  rw [mkReq_toNat, opField_toNat, aField_eq_ofNat_div, bField_eq_ofNat_div, cField_eq_ofNat]
  simp only [BitVec.toNat_ofNat]
  omega

@[simp] theorem opField_and (r m : Req) : opField (r &&& m) = opField r &&& opField m := BitVec.extractLsb'_and

@[simp] theorem aField_and (r m : Req) : aField (r &&& m) = aField r &&& aField m := BitVec.extractLsb'_and

@[simp] theorem bField_and (r m : Req) : bField (r &&& m) = bField r &&& bField m := BitVec.extractLsb'_and

@[simp] theorem cField_and (r m : Req) : cField (r &&& m) = cField r &&& cField m := BitVec.extractLsb'_and

/-- A mask that covers the `a` field keeps it. -/
theorem aField_and_of_full (r : Req) {m : Req} (h : aField m = BitVec.allOnes 32) : aField (r &&& m) = aField r := by
  rw [aField_and, h, BitVec.and_allOnes]

/-- A mask that covers the `b` field keeps it. -/
theorem bField_and_of_full (r : Req) {m : Req} (h : bField m = BitVec.allOnes 32) : bField (r &&& m) = bField r := by
  rw [bField_and, h, BitVec.and_allOnes]

/-! ### The command of a word -/

/-- The command of `i`'s row with the operands that the fields of `r` hold (R85). -/
def Instr.withOperandsOf (i : Instr) (r : Req) : Instr :=
  match i with
  | .configure _ _ _ => .configure (aField r) (bField r) (cField r)
  | .load _ => .load (aField r)
  | .store _ _ => .store (aField r) (bField r)
  | .stats => .stats
  | .dumpMemory _ _ => .dumpMemory (aField r) (bField r)
  | .dumpCache => .dumpCache

theorem rowMatch_withOperandsOf (i : Instr) (r : Req) : rowMatch (i.withOperandsOf r) = rowMatch i := by
  cases i <;> rfl

/-- A word with the opcode of a row decodes to the command of that row (R85). -/
theorem decode_of_opField {r : Req} {i : Instr} (h : opField r = opcodeOf i) : decode r = .ok (i.withOperandsOf r) := by
  rw [decode, h]
  cases i <;> rfl

/-- A word with an opcode above 5 is no command (R88). -/
theorem decode_reserved {r : Req} (h : 5 < (opField r).toNat) : decode r = .error (.illegalCommand (opField r)) := by
  unfold decode
  split
  case h_7 => rfl
  all_goals omega

/-- A word decodes to `i` exactly when it has `i`'s opcode and its fields hold `i`'s operands (R89). -/
theorem decode_ok_iff {r : Req} {i : Instr} :
    decode r = .ok i ↔ opField r = opcodeOf i ∧ i.withOperandsOf r = i := by
  constructor
  · intro h
    unfold decode at h
    split at h
    case h_7 => cases h
    all_goals
      next hop =>
        cases h
        exact ⟨BitVec.eq_of_toNat_eq hop, rfl⟩
  · rintro ⟨hop, hi⟩
    rw [decode_of_opField hop, hi]

/-- Settles O3: the opcode and the operands of a word are its digits, and the decoder answers by the opcode. -/
theorem decodingProcedure : Obligations.DecodingProcedure := by
  intro r op a b c
  have hop : (opField r).toNat = op := opField_toNat r
  have ha : aField r = a := aField_eq_ofNat_div r
  have hb : bField r = b := bField_eq_ofNat_div r
  have hc : cField r = c := cField_eq_ofNat r
  have hrow (i : Instr) (h : op = (opcodeOf i).toNat) : decode r = .ok (i.withOperandsOf r) :=
    decode_of_opField (BitVec.eq_of_toNat_eq (hop.trans h))
  rw [← ha, ← hb, ← hc]
  refine ⟨hrow (.configure a b c), hrow (.load a), hrow (.store a b), hrow .stats, hrow (.dumpMemory a b),
    hrow .dumpCache, fun h => ?_⟩
  rw [decode_reserved (hop ▸ h), ← hop, BitVec.ofNat_toNat, BitVec.setWidth_eq]

/-! ### The masks of the opcode table -/

theorem tableRow (i : Instr) : Laws.TableRow.Statement i := by
  cases i with
  | configure bs nb nw => exact Laws.TableRow.configure bs nb nw
  | load addr => exact Laws.TableRow.load addr
  | store addr value => exact Laws.TableRow.store addr value
  | stats => exact Laws.TableRow.stats
  | dumpMemory addr length => exact Laws.TableRow.dumpMemory addr length
  | dumpCache => exact Laws.TableRow.dumpCache

theorem rowMatch_eq_mkReq (i : Instr) : rowMatch i = mkReq (opcodeOf i) 0#32 0#32 0#32 := (tableRow i).1

/-- The row mask keeps the opcode of a word and clears its operands' fields (R86). -/
theorem and_rowMask (r : Req) : r &&& rowMask = mkReq (opField r) 0#32 0#32 0#32 := by
  have hop : opField rowMask = BitVec.allOnes 4 := rfl
  have ha : aField rowMask = 0#32 := rfl
  have hb : bField rowMask = 0#32 := rfl
  have hc : cField rowMask = 0#32 := rfl
  rw [← mkReq_fields (r &&& rowMask), opField_and, aField_and, bField_and, cField_and, hop, ha, hb, hc]
  simp only [BitVec.and_allOnes, BitVec.and_zero]

/-- A word matches a row under the mask exactly when it has the row's opcode (R86). -/
theorem and_rowMask_eq_rowMatch_iff {r : Req} {i : Instr} : r &&& rowMask = rowMatch i ↔ opField r = opcodeOf i := by
  rw [and_rowMask, rowMatch_eq_mkReq]
  constructor
  · intro h
    simpa using congrArg opField h
  · intro h
    rw [h]

/-- Every command reads the whole `op` field (R86). -/
theorem opField_and_readMask (r : Req) (i : Instr) : opField (r &&& readMask i) = opField r := by
  obtain ⟨-, -, hread, -⟩ := tableRow i
  have hop : opField rowMask = BitVec.allOnes 4 := rfl
  have hfull : opField (readMask i) = BitVec.allOnes 4 := by
    simpa only [opField_and, hop, BitVec.allOnes_and] using congrArg opField hread
  rw [opField_and, hfull, BitVec.and_allOnes]

/-- The read mask of a command keeps the fields of its operands (R85, R86). -/
theorem withOperandsOf_and_readMask (r : Req) (i : Instr) :
    i.withOperandsOf (r &&& readMask i) = i.withOperandsOf r := by
  cases i with
  | configure bs nb nw => exact congrArg (Instr.withOperandsOf _) BitVec.and_allOnes
  | load addr =>
    have ha := aField_and_of_full r (m := readMask (.load addr)) (by rw [readMask]; decide)
    exact congrArg Instr.load ha
  | store addr value =>
    have ha := aField_and_of_full r (m := readMask (.store addr value)) (by rw [readMask]; decide)
    have hb := bField_and_of_full r (m := readMask (.store addr value)) (by rw [readMask]; decide)
    exact congrArg₂ Instr.store ha hb
  | stats => rfl
  | dumpMemory addr length =>
    have ha := aField_and_of_full r (m := readMask (.dumpMemory addr length)) (by rw [readMask]; decide)
    have hb := bField_and_of_full r (m := readMask (.dumpMemory addr length)) (by rw [readMask]; decide)
    exact congrArg₂ Instr.dumpMemory ha hb
  | dumpCache => rfl

/-- The decoder sees of a word only the fields that its command reads (R86). -/
theorem decode_and_readMask {r : Req} {i : Instr} : decode (r &&& readMask i) = .ok i ↔ decode r = .ok i := by
  rw [decode_ok_iff, decode_ok_iff, withOperandsOf_and_readMask, opField_and_readMask]

/-- Settles O4: the decoder answers by the fields under the read mask, and a row's match word is its opcode. -/
theorem ignoredFieldsAreMaskedOut : Obligations.IgnoredFieldsAreMaskedOut := by
  refine ⟨fun r r' i h hmask => ?_, fun r i h => ?_, fun r i h => ?_⟩
  · rw [← decode_and_readMask, ← hmask]
    exact decode_and_readMask.2 h
  · exact and_rowMask_eq_rowMatch_iff.2 (decode_ok_iff.1 h).1
  · exact ⟨i.withOperandsOf r, decode_of_opField (and_rowMask_eq_rowMatch_iff.1 h), rowMatch_withOperandsOf i r⟩

end Sys2Proof
end

section
/-! The address decomposer (R80): the fields of an address as bit fields. -/

namespace Sys2Proof.Machine

theorem offsetOf_eq_extractLsb' {sh : Shape} (hok : sh.Ok) (addr : Word) :
    offsetOf sh addr = (addr.extractLsb' 0 sh.offsetBits).toNat := by
  rw [offsetOf, hok.block, BitVec.extractLsb'_toNat, Nat.shiftRight_zero]

theorem setIndex_eq_extractLsb' {sh : Shape} (hok : sh.Ok) (addr : Word) :
    setIndex sh addr = (addr.extractLsb' sh.offsetBits sh.indexBits).toNat := by
  rw [setIndex, blockNumber, hok.sets, BitVec.extractLsb'_toNat]

theorem tagOf_eq_extractLsb' (sh : Shape) (addr : Word) :
    tagOf sh addr = (addr.extractLsb' (sh.offsetBits + sh.indexBits) sh.tagBits).toNat := by
  rw [tagOf, blockNumber, BitVec.extractLsb'_toNat, Nat.shiftRight_add]

/-- Settles O15: a remainder by a power of two cuts off bits from above, a shift from below. -/
theorem addressFieldsAreBitFields : Obligations.AddressFieldsAreBitFields := by
  intro g sh addr hs
  have hok : sh.Ok := (Geometry.shape?_some hs).1
  exact ⟨offsetOf_eq_extractLsb' hok addr, setIndex_eq_extractLsb' hok addr, tagOf_eq_extractLsb' sh addr,
    tagReg_toNat sh addr⟩

end Sys2Proof.Machine
end

section
/-! The derived quantities of a geometry (R111 to R113) and the block start of an address (R118). -/

namespace Sys2Proof.Machine

/-! ### The derived quantities -/

/-- Every power of two has its exponent as logarithm (R110). -/
@[simp] theorem log2?_two_pow (k : Nat) : log2? (2 ^ k) = some k := by
  rw [log2?, Nat.log2_two_pow, if_pos rfl]

/-- Condition 6 of R224 asks of both numbers that they have a logarithm. -/
theorem exists_log2?_of_indexFits {bs ns : Nat} (h : indexFits bs ns = true) :
    ∃ ob ib, log2? bs = some ob ∧ log2? ns = some ib := by
  unfold indexFits at h
  split at h
  · exact ⟨_, _, ‹_›, ‹_›⟩
  · cases h

/-- Every valid geometry has derived quantities (R22). -/
theorem Geometry.exists_shape?_of_valid {g : Geometry}
    (hv : validGeometry g.blockSizeBytes g.numBlocks g.numWays = true) : ∃ sh, g.shape? = some sh := by
  have hfits : indexFits g.blockSizeBytes.toNat (g.numBlocks.toNat / g.numWays.toNat) = true := by
    simp only [validGeometry, Bool.and_eq_true] at hv
    obtain ⟨⟨⟨-, hfits⟩, -⟩, -⟩ := hv
    exact hfits
  obtain ⟨ob, ib, hob, hib⟩ := exists_log2?_of_indexFits hfits
  rw [Geometry.shape?, if_pos hv, hob, hib]
  exact ⟨_, rfl⟩

/-- A block size that a 32-bit register holds has at most 31 offset bits (R111). -/
theorem Shape.Ok.offsetBits_le {sh : Shape} (hok : sh.Ok) {bs : Word} (hbs : sh.blockBytes = bs.toNat) :
    sh.offsetBits ≤ 31 := by
  have hlt : 2 ^ sh.offsetBits < 2 ^ 32 := hok.block ▸ hbs ▸ bs.isLt
  exact Nat.le_of_lt_succ ((Nat.pow_lt_pow_iff_right (by decide)).1 hlt)

/-- Settles O14: the sizes of a shape are powers of two with its widths as logarithms, and a word of at least two offset
bits bounds the other widths. -/
theorem derivedFieldWidths : Obligations.DerivedFieldWidths := by
  refine fun g => ⟨⟨Geometry.exists_shape?_of_valid, fun ⟨sh, hs⟩ => ?_⟩, fun sh hs => ?_⟩
  · obtain ⟨-, hvalid, -⟩ := Geometry.shape?_some hs
    exact hvalid
  obtain ⟨hok, -, hblock, hways, hblocks⟩ := Geometry.shape?_some hs
  have hsets : sh.numSets = g.numBlocks.toNat / g.numWays.toNat := by
    rw [← hblocks, ← hways, Nat.mul_div_cancel _ hok.ways]
  have hoffset : log2? g.blockSizeBytes.toNat = some sh.offsetBits := by rw [← hblock, hok.block, log2?_two_pow]
  have hindex : log2? sh.numSets = some sh.indexBits := by rw [hok.sets, log2?_two_pow]
  have hword := hok.word
  have hfits := hok.fits
  have htag : sh.tagBits = 32 - sh.indexBits - sh.offsetBits := rfl
  exact ⟨hblock, hways, hsets, hblocks, hoffset, hword, hok.offsetBits_le hblock, hindex, by omega, by omega, by omega⟩

/-! ### The block start -/

/-- An address stands at its offset in its block (R117, R118). -/
theorem blockStart_add_offsetOf (sh : Shape) (addr : Word) : blockStart sh addr + offsetOf sh addr = addr.toNat :=
  Nat.sub_add_cancel (Nat.mod_le _ _)

/-- The offset of an address is inside its block (R117). -/
theorem offsetOf_lt {sh : Shape} (hok : sh.Ok) (addr : Word) : offsetOf sh addr < sh.blockBytes :=
  Nat.mod_lt _ (hok.block ▸ Nat.two_pow_pos _)

/-- Settles O16: the block start is the block number times the block size, and an address lies at its offset from
there. -/
theorem blockStartOfAddress : Obligations.BlockStartOfAddress := by
  intro g sh addr hs
  have hok : sh.Ok := (Geometry.shape?_some hs).1
  have hstart := blockStart_eq_mul hok addr
  have hsum := blockStart_add_offsetOf sh addr
  have hoffset := offsetOf_lt hok addr
  have hshift : blockStart sh addr = blockNumber sh addr <<< sh.offsetBits := by
    rw [hstart, hok.block, Nat.shiftLeft_eq, Nat.mul_comm]
  exact ⟨rfl, Dvd.intro _ hstart.symm, by omega, by omega, hshift⟩

end Sys2Proof.Machine
end

section
/-! The lookups of the line store (R132, R134, R136) and the three paths of an access (R140). -/

namespace Sys2Proof.Machine

/-! ### The tag comparator and the free-way selector -/

/-- A search of the ways answers the lowest one that the test accepts. -/
theorem findIdx?_eq_some_iff_lowest {ways : List Line} {p : Line → Bool} {w : Nat} :
    ways.findIdx? p = some w
      ↔ (∃ l, ways[w]? = some l ∧ p l = true) ∧ ∀ (j : Nat) (l : Line), j < w → ways[j]? = some l → p l = false := by
  rw [List.findIdx?_eq_some_iff_getElem]
  constructor
  · rintro ⟨hw, hp, hlow⟩
    refine ⟨⟨ways[w], List.getElem?_eq_getElem hw, hp⟩, fun j l hj hl => ?_⟩
    obtain ⟨-, rfl⟩ := List.getElem?_eq_some_iff.1 hl
    exact Bool.eq_false_iff.2 (hlow j hj)
  · rintro ⟨⟨l, hl, hp⟩, hlow⟩
    obtain ⟨hw, rfl⟩ := List.getElem?_eq_some_iff.1 hl
    exact ⟨hw, hp, fun j hj => Bool.eq_false_iff.1 (hlow j _ hj (List.getElem?_eq_getElem (hj.trans hw)))⟩

/-- The tag comparator accepts the valid ways that hold the tag, and no other (R132). -/
theorem tagMatch_iff {l : Line} {t : Word} : (l.valid && l.tag == t) = true ↔ l.valid = true ∧ l.tag = t := by
  rw [Bool.and_eq_true, beq_iff_eq]

/-- Settles O20: `find` is a search of the ways, and its test is the tag comparator. -/
theorem findAnswersLowestMatch : Obligations.FindAnswersLowestMatch := by
  refine fun ways t => ⟨fun w => ?_, ?_⟩
  · simp only [find, findIdx?_eq_some_iff_lowest, tagMatch_iff, ← Bool.not_eq_true]
  · simp only [find, List.findIdx?_eq_none_iff, tagMatch_iff, ← Bool.not_eq_true]

/-- Settles O21: `first_free` is a search of the ways, and its test is the inverted valid bit. -/
theorem firstFreeAnswersLowestInvalid : Obligations.FirstFreeAnswersLowestInvalid := by
  refine fun ways => ⟨fun w => ?_, ?_⟩
  · simp only [firstFree, findIdx?_eq_some_iff_lowest, Bool.not_eq_true', Bool.not_eq_false']
  · simp only [firstFree, List.findIdx?_eq_none_iff, Bool.not_eq_false']

/-! ### The LRU arbiter -/

/-- Way `v` has the smallest of the timestamps, `ts`, and is the lowest way that has it (R136). -/
structure LowestOldest (stamps : List Word) (v : Nat) (ts : Word) : Prop where
  stamp : stamps[v]? = some ts
  least : ∀ t ∈ stamps, ts.toNat ≤ t.toNat
  lowest : ∀ (j : Nat) (t : Word), j < v → stamps[j]? = some t → ts.toNat < t.toNat

/-- Of given timestamps only one way is the lowest with the smallest. -/
theorem LowestOldest.unique {stamps : List Word} {v v' : Nat} {ts ts' : Word} (h : LowestOldest stamps v ts)
    (h' : LowestOldest stamps v' ts') : v = v' := by
  rcases Nat.lt_trichotomy v v' with hlt | heq | hlt
  · exact absurd (h.least ts' (List.mem_of_getElem? h'.stamp)) (Nat.not_le.2 (h'.lowest v ts hlt h.stamp))
  · exact heq
  · exact absurd (h'.least ts (List.mem_of_getElem? h.stamp)) (Nat.not_le.2 (h.lowest v' ts' hlt h'.stamp))

/-- Of one way the only way is the lowest with the smallest timestamp. -/
theorem LowestOldest.singleton (ts : Word) : LowestOldest [ts] 0 ts where
  stamp := rfl
  least := List.forall_mem_singleton.2 (Nat.le_refl _)
  lowest _ _ hj := absurd hj (Nat.not_lt_zero _)

/-- A way with a smaller timestamp than all before takes over (R136). -/
theorem LowestOldest.concat_of_lt {stamps : List Word} {v : Nat} {ts t : Word} (h : LowestOldest stamps v ts)
    (ht : t < ts) : LowestOldest (stamps ++ [t]) stamps.length t := by
  have hlt : t.toNat < ts.toNat := ht
  have hall (u : Word) (hu : u ∈ stamps) : t.toNat < u.toNat := hlt.trans_le (h.least u hu)
  refine ⟨List.getElem?_concat_length, List.forall_mem_append.2 ⟨fun u hu => (hall u hu).le, ?_⟩, fun j u hj hu => ?_⟩
  · exact List.forall_mem_singleton.2 (Nat.le_refl _)
  · rw [List.getElem?_append_left hj] at hu
    exact hall u (List.mem_of_getElem? hu)

/-- A way with an equal or larger timestamp does not take over (R136). -/
theorem LowestOldest.concat_of_not_lt {stamps : List Word} {v : Nat} {ts t : Word} (h : LowestOldest stamps v ts)
    (ht : ¬ t < ts) : LowestOldest (stamps ++ [t]) v ts := by
  have hle : ts.toNat ≤ t.toNat := Nat.not_lt.1 ht
  have hv : v < stamps.length := (List.getElem?_eq_some_iff.1 h.stamp).1
  refine ⟨by rw [List.getElem?_append_left hv, h.stamp], List.forall_mem_append.2 ⟨h.least, ?_⟩, fun j u hj hu => ?_⟩
  · exact List.forall_mem_singleton.2 hle
  · rw [List.getElem?_append_left (hj.trans hv)] at hu
    exact h.lowest j u hj hu

/-- The scan keeps the lowest way with the smallest timestamp of all it has seen (R136). -/
theorem lruScan_lowestOldest {stamps : List Word} {best : Nat} {ts : Word} (ways : List Line)
    (h : LowestOldest stamps best ts) :
    ∃ ts', LowestOldest (stamps ++ ways.map Line.timestamp) (lruScan best ts stamps.length ways) ts' := by
  induction ways generalizing stamps best ts with
  | nil => exact ⟨ts, by simpa [lruScan] using h⟩
  | cons l ls ih =>
    rw [List.map_cons, List.append_cons, lruScan]
    have hlen : (stamps ++ [l.timestamp]).length = stamps.length + 1 := List.length_append
    split
    · next hlt => exact hlen ▸ ih (h.concat_of_lt hlt)
    · next hge => exact hlen ▸ ih (h.concat_of_not_lt hge)

/-- Everything `lru_victim` answers of a set with a way (R136). -/
theorem lruVictim_lowestOldest {ways : List Line} (hne : ways ≠ []) :
    ∃ ts, LowestOldest (ways.map Line.timestamp) (lruVictim ways) ts := by
  cases ways with
  | nil => exact absurd rfl hne
  | cons l ls => exact lruScan_lowestOldest ls (.singleton l.timestamp)

/-- `lru_victim` looks at nothing but the timestamps (R136). -/
theorem lruVictim_eq_of_timestamps {ways ways' : List Line}
    (h : ways.map Line.timestamp = ways'.map Line.timestamp) : lruVictim ways = lruVictim ways' := by
  by_cases hne : ways = []
  · subst hne
    rw [List.map_eq_nil_iff.1 h.symm]
  · have hne' : ways' ≠ [] := fun hnil => hne (List.map_eq_nil_iff.1 (by rw [h, hnil, List.map_nil]))
    obtain ⟨ts, hv⟩ := lruVictim_lowestOldest hne
    obtain ⟨ts', hv'⟩ := lruVictim_lowestOldest hne'
    exact (h ▸ hv).unique hv'

/-- Settles O22: the answer is the lowest way with the smallest timestamp, which the timestamps alone determine. -/
theorem lruVictimHasSmallestTimestamp : Obligations.LruVictimHasSmallestTimestamp := by
  refine ⟨fun ways hne => ?_, fun ways ways' => lruVictim_eq_of_timestamps⟩
  obtain ⟨ts, hstamp, hleast, hlowest⟩ := lruVictim_lowestOldest hne
  rw [List.getElem?_map] at hstamp
  obtain ⟨l, hl, rfl⟩ := Option.map_eq_some_iff.1 hstamp
  refine ⟨l, hl, fun j l' hl' => ?_⟩
  have hj : (ways.map Line.timestamp)[j]? = some l'.timestamp := by rw [List.getElem?_map, hl', Option.map_some]
  exact ⟨hleast _ (List.mem_of_getElem? hj), fun hlt => hlowest j _ hlt hj⟩

/-! ### The three paths of an access -/

/-- Settles O23: what `access_line` can do, path by path; the answers of `find` and `first_free` exclude the others. -/
theorem accessTakesOneOfThreePaths : Obligations.AccessTakesOneOfThreePaths := by
  intro sh st bs t s a h
  rcases accessLine_cases h with ⟨l, hf, -, hhit, -⟩ | ⟨l, hf, -, hff, hmiss, -⟩ | ⟨l, hf, -, hff, hlru, hmiss, -⟩
  · simp [hf, hhit]
  · simp [hf, hff, hmiss]
  · simp [hf, hff, hlru, hmiss]

end Sys2Proof.Machine
end

section
/-! LOAD (R153): the word it returns once the block it accesses is in its line, on a hit (R155) and on a miss with a free
way (R156). -/

namespace Sys2Proof.Machine

/-- The buffer of a whole block holds a word at the word offset of every address (R55, R163). -/
theorem exists_unbe32_slice_wordOffset {sh : Shape} {buf : List Byte} (hok : sh.Ok)
    (hlen : buf.length = sh.blockBytes) (addr : Word) : ∃ v, unbe32 (slice buf (wordOffset sh addr) 4) = some v :=
  unbe32_of_length (slice_length (hlen ▸ wordOffset_add_four_le hok addr))

end Sys2Proof.Machine

namespace Sys2Proof.Safety

open Sys2Proof.Machine

/-- Every line of a configured block is in order (R23, R28, R34). -/
theorem Formed.lineOk {s : State} {sh : Shape} {k : Nat} {l : Line} (hF : Formed s) (hc : s.configured = true)
    (hs : s.geometry.shape? = some sh) (hl : s.lines[k]? = some l) : LineOk sh l := by
  obtain ⟨sh', hs', -, hok⟩ := hF.configured hc
  cases hs.symm.trans hs'
  exact hok l (List.mem_of_getElem? hl)

section Admitted

variable {s : State} {sh : Shape} {addr : Word} (hc : s.configured = true) (hs : s.geometry.shape? = some sh)
  (hb : inBounds sh addr = true)
include hc hs hb

/-- A LOAD whose access puts the whole block, as line `L`, in way `w` completes with the aligned word of `L` (R153). -/
theorem exec_load_of_accessLine {s' : State} {o : HitMiss} {w : Nat} {l L : Line}
    (hl : s'.lines[lineIndex sh (setIndex sh addr) w]? = some l) (hlen : L.data.length = sh.blockBytes)
    (ha : accessLine sh (setIndex sh addr) (tagReg sh addr) (blockStart sh addr) s
      = .ok ⟨o, w, s'.setLine sh (setIndex sh addr) w L⟩) :
    ∃ v, unbe32 (slice L.data (wordOffset sh addr) 4) = some v
      ∧ exec (.load addr) s
        = .next ((account o (s'.setLine sh (setIndex sh addr) w L)).respond o.status (.word v)) := by
  obtain ⟨v, hv⟩ := exists_unbe32_slice_wordOffset (Geometry.shape?_some hs).1 hlen addr
  have hword := readWord_eq (State.setLine_getElem?_self L hl) hv
  have hwork : loadWork addr s = .ok ⟨account o (s'.setLine sh (setIndex sh addr) w L), o.status, .word v⟩ := by
    simp only [loadWork, admitAccess_admitted hc hs hb, loadAdmitted, ha, hword]
  exact ⟨v, hv, complete_next_iff.2 ⟨_, hwork, rfl⟩⟩

end Admitted

/-- Settles O25: the matching way is a line with a whole block, which the access stamps and the LOAD reads. -/
theorem loadHitCompletes : Obligations.LoadHitCompletes := by
  intro s sh addr w hF hc hs hb hf
  obtain ⟨l, hway, -, -⟩ := find_some hf
  have hl := (getElem?_of_setLines hway).2
  obtain ⟨hlen, -, -⟩ := hF.lineOk hc hs hl
  obtain ⟨v, hv, hexec⟩ := exec_load_of_accessLine (L := l.stamp s.cycles) hc hs hb hl hlen (accessLine_hit hf hl)
  exact ⟨l, v, hl, hv, hexec⟩

/-- Settles O26: the first free way is a line as CONFIGURE made it, so clean, and the LOAD reads the block filled into
it. -/
theorem loadMissTakesFreeWay : Obligations.LoadMissTakesFreeWay := by
  intro s sh addr w hF hc hs hb hf hff
  obtain ⟨l, hway, hinvalid, -⟩ := firstFree_some hff
  have hl := (getElem?_of_setLines hway).2
  obtain ⟨-, -, hempty⟩ := hF.lineOk hc hs hl
  have hclean : l.dirty = false := by rw [hempty hinvalid]; rfl
  obtain ⟨v, hv, hexec⟩ := exec_load_of_accessLine hc hs hb hl (Memory.readBytes_length _ _ _)
    (accessLine_free hf hff hl (inBounds_iff.1 hb))
  exact ⟨l, v, hl, hclean, hv, hexec⟩

end Sys2Proof.Safety
end

section
/-! STORE (R181): the word it writes on top of the block its access puts in a line, on a hit (R183), and what LOAD and
STORE make of the dirty bit of that line (R186, R27). -/

namespace Sys2Proof.Safety

open Sys2Proof.Machine

section Admitted

variable {s : State} {sh : Shape} {addr : Word} (hc : s.configured = true) (hs : s.geometry.shape? = some sh)
  (hb : inBounds sh addr = true)
include hc hs hb

/-- A STORE whose access puts the whole block, as line `L`, in way `w` completes with the word written into `L` and `L`
dirty (R184, R186). -/
theorem exec_store_of_accessLine {s' : State} {o : HitMiss} {w : Nat} {l L : Line} (value : Word)
    (hl : s'.lines[lineIndex sh (setIndex sh addr) w]? = some l) (hlen : L.data.length = sh.blockBytes)
    (ha : accessLine sh (setIndex sh addr) (tagReg sh addr) (blockStart sh addr) s
      = .ok ⟨o, w, s'.setLine sh (setIndex sh addr) w L⟩) :
    exec (.store addr value) s
      = .next ((account o (s'.setLine sh (setIndex sh addr) w
          (L.putWord (wordOffset sh addr) value).markDirty)).respond o.status (.word value)) := by
  have hroom : wordOffset sh addr + 4 ≤ L.data.length :=
    hlen ▸ wordOffset_add_four_le (Geometry.shape?_some hs).1 addr
  have hword := writeWord_eq value (State.setLine_getElem?_self L hl) hroom
  rw [State.setLine_setLine] at hword
  have hwork : storeWork addr value s = .ok ⟨account o (s'.setLine sh (setIndex sh addr) w
      (L.putWord (wordOffset sh addr) value).markDirty), o.status, .word value⟩ := by
    simp only [storeWork, admitAccess_admitted hc hs hb, storeAdmitted, ha, hword]
  exact complete_next_iff.2 ⟨_, hwork, rfl⟩

end Admitted

/-- Settles O29: the matching way is a line with a whole block, which the access stamps and the STORE writes its word
into. -/
theorem storeHitCompletes : Obligations.StoreHitCompletes := by
  intro s sh addr value w hF hc hs hb hf
  obtain ⟨l, hway, -, -⟩ := find_some hf
  have hl := (getElem?_of_setLines hway).2
  obtain ⟨hlen, -, -⟩ := hF.lineOk hc hs hl
  exact ⟨l, hl, exec_store_of_accessLine (L := l.stamp s.cycles) hc hs hb value hl hlen (accessLine_hit hf hl)⟩

/-! ### The dirty bit of the accessed line -/

/-- What the command `i` makes of the dirty bit when its access of `addr` turns the line `l` into `L`: a STORE sets it; a
LOAD keeps it, unless it evicts `l` dirty, whose block it then writes back (R158, R161, R186). -/
inductive AccessedDirty (i : Instr) (sh : Shape) (s : State) (addr : Word) (l L : Line) : Prop where
  | store (v : Word) (command : i = .store addr v) (new : L.dirty = true)
  | kept (command : i = .load addr) (new : L.dirty = l.dirty)
  | writtenBack (command : i = .load addr) (new : L.dirty = false)
      (block : writtenBack? sh s addr = some (blockAddressOf sh l.tag.toNat (setIndex sh addr)))

/-- A LOAD or STORE is rejected and leaves every line as it was, or replaces the line it uses, with its dirty bit as
`AccessedDirty` says. -/
theorem exec_access_dirty {i : Instr} {addr : Word} {s t : State} (hi : accessAddr? i = some addr)
    (h : exec i s = .next t) :
    (t.lines = s.lines ∧ ∃ e, admitAccess addr s = .ok (.rejected e))
    ∨ ∃ (sh : Shape) (l L : Line), s.geometry.shape? = some sh ∧ s.lines[accessIndex sh s addr]? = some l
        ∧ t.lines = s.lines.set (accessIndex sh s addr) L ∧ AccessedDirty i sh s addr l L := by
  rcases exec_access_cases hi h with ⟨e, hrej, rfl⟩ | ⟨sh, l, b, L, m, v, -, hs, -, hl, hpath, hword, rfl⟩
  · refine .inl ⟨rfl, e, ?_⟩
    rcases hrej with ⟨rfl, hc⟩ | ⟨rfl, hc, sh, hs, hb⟩
    · simp [admitAccess, hc]
    · simp [admitAccess, hc, hs, hb]
  · refine .inr ⟨sh, l, L, hs, hl, by simp [accessIndex], ?_⟩
    rcases hword with ⟨hload, rfl, -⟩ | ⟨hstore, -, rfl⟩
    · rcases hpath with ⟨-, -, -, -, rfl⟩ | ⟨-, -, ⟨-, -, -, rfl⟩ | ⟨-, -, -, -, -, hwb, -, rfl⟩⟩
      · exact .kept hload rfl
      · exact .kept hload rfl
      · exact .writtenBack hload rfl hwb
    · exact .store v hstore rfl

/-- The line at index `k` after line `j` was replaced by `L`. -/
theorem getElem?_set_cases {lines : List Line} {j k : Nat} {L l' : Line} (h : (lines.set j L)[k]? = some l') :
    (k = j ∧ l' = L) ∨ lines[k]? = some l' := by
  rw [List.getElem?_set] at h
  split at h
  · next hjk =>
    split at h
    · exact .inl ⟨hjk.symm, (Option.some.inj h).symm⟩
    · cases h
  · exact .inr h

/-- A STORE that is not rejected leaves the line it used dirty (R186). -/
theorem store_accessed_dirty {s t : State} {sh : Shape} {addr v : Word} (hc : s.configured = true)
    (hs : s.geometry.shape? = some sh) (hb : inBounds sh addr = true) (h : exec (.store addr v) s = .next t) :
    ∃ l, t.lines[accessIndex sh s addr]? = some l ∧ l.dirty = true := by
  rcases exec_access_dirty rfl h with ⟨-, e, hrej⟩ | ⟨sh', l, L, hs', hl, ht, hL⟩
  · cases (admitAccess_admitted hc hs hb).symm.trans hrej
  · cases hs.symm.trans hs'
    refine ⟨L, by rw [ht, List.getElem?_set_self (List.getElem?_eq_some_iff.1 hl).1], ?_⟩
    cases hL with
    | store _ _ new => exact new
    | kept command _ => cases command
    | writtenBack command _ _ => cases command

/-- A line that is dirty after a LOAD was dirty before it (R27). -/
theorem load_dirty_before {s t : State} {addr : Word} {k : Nat} {l' : Line} (h : exec (.load addr) s = .next t)
    (hl' : t.lines[k]? = some l') (hd : l'.dirty = true) : ∃ l, s.lines[k]? = some l ∧ l.dirty = true := by
  rcases exec_access_dirty rfl h with ⟨hsame, -⟩ | ⟨sh, l, L, -, hl, ht, hL⟩
  · exact ⟨l', hsame ▸ hl', hd⟩
  · rcases getElem?_set_cases (ht ▸ hl') with ⟨rfl, rfl⟩ | hkept
    · refine ⟨l, hl, ?_⟩
      cases hL with
      | store _ command _ => cases command
      | kept _ new => exact new.symm.trans hd
      | writtenBack _ new _ => cases new.symm.trans hd
    · exact ⟨l', hkept, hd⟩

/-- A command that makes a dirty line clean is a LOAD that evicts the line and writes its block back (R27, R158). -/
theorem exec_cleans_only_written_back {i : Instr} {s t : State} {k : Nat} {l l' : Line} (hF : Formed s)
    (h : exec i s = .next t) (hl : s.lines[k]? = some l) (hl' : t.lines[k]? = some l') (hd : l.dirty = true)
    (hd' : l'.dirty = false) :
    ∃ addr sh, i = .load addr ∧ s.geometry.shape? = some sh ∧ k = accessIndex sh s addr
      ∧ writtenBack? sh s addr = some (blockAddressOf sh l.tag.toNat (setIndex sh addr)) := by
  have hchanged : s.lines[k]? ≠ some l' := fun hsame => by
    cases hl.symm.trans hsame
    cases hd.symm.trans hd'
  cases hi : accessAddr? i with
  | none =>
    rcases exec_nonAccess_lines hF hi h with hsame | hnil
    · exact absurd (hsame ▸ hl') hchanged
    · simp [hnil] at hl
  | some addr =>
    rcases exec_access_dirty hi h with ⟨hsame, -⟩ | ⟨sh, l₀, L, hs, hl₀, ht, hL⟩
    · exact absurd (hsame ▸ hl') hchanged
    · rcases getElem?_set_cases (ht ▸ hl') with ⟨rfl, rfl⟩ | hkept
      · cases hl₀.symm.trans hl
        cases hL with
        | store _ _ new => cases new.symm.trans hd'
        | kept _ new => cases hd.symm.trans (new.symm.trans hd')
        | writtenBack command _ block => exact ⟨addr, sh, command, hs, rfl, block⟩
      · exact absurd hkept hchanged

/-- Settles O44: a STORE sets the dirty bit of the line it uses, a LOAD sets none, and only the write-back of a LOAD that
evicts clears one. -/
theorem dirtyBitRules : Obligations.DirtyBitRules :=
  ⟨fun _ _ _ _ _ => store_accessed_dirty, fun _ _ _ _ _ => load_dirty_before,
    fun _ _ _ _ _ _ => exec_cleans_only_written_back⟩

end Sys2Proof.Safety
end

section
/-! The accounting step (R200): which answers are counted, and what a count adds to the counters, modulo 2^32. -/

namespace Sys2Proof.Safety

open Sys2Proof.Machine

/-- The three counters are as they were. -/
abbrev SameCounters (s t : State) : Prop := t.hits = s.hits ∧ t.misses = s.misses ∧ t.cycles = s.cycles

/-- An answer that the accounting step does not count (R200). -/
abbrev Uncounted (e : Status) : Prop := e ≠ .hit ∧ e ≠ .miss

/-- The other commands answer DONE or an error and count nothing (R205, R221, R230, R235). -/
theorem exec_nonAccess_uncounted {i : Instr} {s t : State} (hi : accessAddr? i = none) (h : exec i s = .next t) :
    ∃ (s' : State) (e : Status) (p : Payload), Uncounted e ∧ SameCounters s s' ∧ t = s'.respond e p := by
  cases i with
  | load addr => cases hi
  | store addr v => cases hi
  | configure bs nb nw =>
    rcases exec_configure_cases h with ⟨-, ht⟩ | ⟨-, -, ht⟩ | ⟨-, -, ht⟩
    · exact ⟨s, .sequenceError, .none, by decide, ⟨rfl, rfl, rfl⟩, ht⟩
    · exact ⟨s, .configError, .none, by decide, ⟨rfl, rfl, rfl⟩, ht⟩
    · exact ⟨s.install bs nb nw, .done, .none, by decide, ⟨rfl, rfl, rfl⟩, ht⟩
  | stats =>
    cases h
    exact ⟨s, .done, _, by decide, ⟨rfl, rfl, rfl⟩, rfl⟩
  | dumpCache =>
    cases h
    exact ⟨s, .done, _, by decide, ⟨rfl, rfl, rfl⟩, rfl⟩
  | dumpMemory addr n =>
    cases h
    unfold dumpMemoryWork
    split
    · exact ⟨s, .done, _, by decide, ⟨rfl, rfl, rfl⟩, rfl⟩
    · exact ⟨s, .outOfBounds, .none, by decide, ⟨rfl, rfl, rfl⟩, rfl⟩

/-- A command leaves the counters alone and gives an uncounted answer, or it is a LOAD or STORE that answers its outcome
right after the accounting step (R153, R181, R200). -/
theorem exec_accounting_cases {i : Instr} {s t : State} (h : exec i s = .next t) :
    ∃ (s' : State) (p : Payload), SameCounters s s'
      ∧ ((∃ e, Uncounted e ∧ t = s'.respond e p) ∨ ∃ o : HitMiss, t = (account o s').respond o.status p) := by
  cases hi : accessAddr? i with
  | none =>
    obtain ⟨s', e, p, he, hsame, ht⟩ := exec_nonAccess_uncounted hi h
    exact ⟨s', p, hsame, .inl ⟨e, he, ht⟩⟩
  | some addr =>
    rcases exec_access_cases hi h with ⟨e, hrej, ht⟩ | ⟨sh, -, -, L, m, v, -, -, -, -, -, -, ht⟩
    · have he : Uncounted e := by rcases hrej with ⟨rfl, -⟩ | ⟨rfl, -⟩ <;> decide
      exact ⟨s, .none, ⟨rfl, rfl, rfl⟩, .inl ⟨e, he, ht⟩⟩
    · exact ⟨(s.setMem m).setLine sh (setIndex sh addr) (accessWay sh s addr) L, .word v, ⟨rfl, rfl, rfl⟩,
        .inr ⟨accessOutcome sh s addr, ht⟩⟩

/-- A counter advances by `n` modulo 2^32 (R204). -/
theorem ofNat_toNat_add (c : Word) (n : Nat) : BitVec.ofNat 32 (c.toNat + n) = c + BitVec.ofNat 32 n := by
  rw [BitVec.ofNat_add, BitVec.ofNat_toNat, BitVec.setWidth_eq]

/-- Settles O41: an answer HIT or MISS comes from the accounting step of that outcome, and any other answer from a
command that left the counters alone. -/
theorem accountingStep : Obligations.AccountingStep := by
  intro i s t e p h hr
  obtain ⟨s', q, ⟨hhits, hmisses, hcycles⟩, ⟨e', ⟨hhit, hmiss⟩, rfl⟩ | ⟨o, rfl⟩⟩ := exec_accounting_cases h
  · cases hr
    exact ⟨fun he => absurd he hhit, fun he => absurd he hmiss, fun _ _ => ⟨hhits, hmisses, hcycles⟩⟩
  · cases hr
    cases o with
    | hit => simp [HitMiss.status, ofNat_toNat_add, hhits, hmisses, hcycles, Config.cyclesHit]
    | miss => simp [HitMiss.status, ofNat_toNat_add, hhits, hmisses, hcycles, Config.cyclesMiss]

end Sys2Proof.Safety
end

section
/-! The conditions of a valid geometry (R222, R224), and what CONFIGURE (R221) and DUMP_MEMORY (R230) answer. -/

namespace Sys2Proof.Machine

/-! ### The conditions of a valid geometry -/

/-- `log2` as a relation: a number has the logarithm `k` exactly when it is `2 ^ k` (R110). -/
theorem log2?_eq_some_iff {n k : Nat} : log2? n = some k ↔ n = 2 ^ k :=
  ⟨log2?_some, fun h => h ▸ log2?_two_pow k⟩

/-- `is_pow2` tells the powers of two (R222). -/
theorem isPow2_iff {n : Nat} : isPow2 n = true ↔ ∃ k, n = 2 ^ k := by
  simp only [isPow2, Option.isSome_iff_exists, log2?_eq_some_iff]

/-- Condition 6 of R224, which holds only of two powers of two. -/
theorem indexFits_iff {bs ns : Nat} :
    indexFits bs ns = true ↔ ∃ x y, bs = 2 ^ x ∧ ns = 2 ^ y ∧ x + y ≤ 32 := by
  constructor
  · intro h
    obtain ⟨x, y, hx, hy⟩ := exists_log2?_of_indexFits h
    refine ⟨x, y, log2?_some hx, log2?_some hy, ?_⟩
    simpa only [indexFits, hx, hy, decide_eq_true_eq] using h
  · rintro ⟨x, y, rfl, rfl, hfits⟩
    simpa only [indexFits, log2?_two_pow, decide_eq_true_eq] using hfits

/-- An absent limit limits nothing (R224 condition 7). -/
theorem withinLimit_iff {n : Nat} {limit : Option Nat} :
    withinLimit n limit = true ↔ ∀ m, limit = some m → n ≤ m := by
  cases limit <;> simp [withinLimit]

/-- Settles O13: each conjunct of `validGeometry` is its condition of R224, and the two powers of two of conditions 3 and
4 are those whose exponents condition 6 adds. -/
theorem validGeometryConditions : Obligations.ValidGeometryConditions := by
  intro bs nb nw
  simp only [validGeometry, Bool.and_eq_true, decide_eq_true_eq, isPow2_iff, indexFits_iff, withinLimit_iff, and_assoc]
  constructor
  · rintro ⟨hways, hdvd, -, -, hword, hfits, hblock, hblocks⟩
    exact ⟨hways, hdvd, hfits, hword, hblock, hblocks⟩
  · rintro ⟨hways, hdvd, ⟨x, y, hx, hy, hfits⟩, hword, hblock, hblocks⟩
    exact ⟨hways, hdvd, ⟨x, hx⟩, ⟨y, hy⟩, hword, ⟨x, y, hx, hy, hfits⟩, hblock, hblocks⟩

/-! ### CONFIGURE -/

section Configure

variable {s : State} {bs nb nw : Word}

/-- CONFIGURE completes in every state (R6). -/
theorem exec_configure : exec (.configure bs nb nw) s = .next (configureWork bs nb nw s).finish := rfl

/-- A configured block is not configured again (R227). -/
theorem configureWork_of_configured (hc : s.configured = true) :
    configureWork bs nb nw s = reject .sequenceError s := if_pos hc

/-- No invalid geometry is installed (R224). -/
theorem configureWork_of_invalid (hc : s.configured = false) (hv : validGeometry bs nb nw = false) :
    configureWork bs nb nw s = reject .configError s := by simp [configureWork, hc, hv]

/-- The first valid geometry is installed (R221, R225). -/
theorem configureWork_of_valid (hc : s.configured = false) (hv : validGeometry bs nb nw = true) :
    configureWork bs nb nw s = ⟨s.install bs nb nw, .done, .none⟩ := by simp [configureWork, hc, hv]

end Configure

/-- Settles O24: the work of CONFIGURE in each of the three cases, and the state its response leaves. -/
theorem configureOutcomes : Obligations.ConfigureOutcomes := by
  refine fun s bs nb nw => ⟨fun hc => ?_, fun hc hv => ?_, fun hc hv => ?_⟩
  · rw [exec_configure, configureWork_of_configured hc]
    rfl
  · rw [exec_configure, configureWork_of_invalid hc hv]
    rfl
  · rw [exec_configure, configureWork_of_valid hc hv]
    rfl

/-! ### DUMP_MEMORY -/

section DumpMemory

variable {s : State} {addr length : Word}

/-- DUMP_MEMORY completes in every state (R6). -/
theorem exec_dumpMemory : exec (.dumpMemory addr length) s = .next (dumpMemoryWork addr length s).finish := rfl

/-- A range inside Memory is answered with its bytes (R230). -/
theorem dumpMemoryWork_of_inside (h : addr.toNat + length.toNat ≤ Config.memSize) :
    dumpMemoryWork addr length s = ⟨s, .done, .bytes (s.mem.readBytes addr.toNat length.toNat)⟩ :=
  if_pos (decide_eq_true h)

/-- A range that ends past Memory is rejected, the sum not reduced modulo 2^32 (R231). -/
theorem dumpMemoryWork_of_outside (h : Config.memSize < addr.toNat + length.toNat) :
    dumpMemoryWork addr length s = reject .outOfBounds s := by
  simp [dumpMemoryWork, dumpInBounds, h]

end DumpMemory

/-- Settles O37: the work of DUMP_MEMORY inside Memory and past its end; byte `i` of what it reads is the byte of Memory
at `addr + i`. -/
theorem dumpMemoryReturnsBytes : Obligations.DumpMemoryReturnsBytes := by
  refine fun s addr length => ⟨fun h => ?_, fun h => ?_⟩
  · refine ⟨s.mem.readBytes addr.toNat length.toNat, ?_, Memory.readBytes_length .., fun i hi => ?_⟩
    · rw [exec_dumpMemory, dumpMemoryWork_of_inside h]
      rfl
    · rw [Memory.readBytes_getElem?, if_pos hi]
  · rw [exec_dumpMemory, dumpMemoryWork_of_outside h]
    rfl

end Sys2Proof.Machine
end

section
/-! Rejections (60_exceptions.md): a rejected command leaves the state it found, with the error in the response (R256);
the conditions under which LOAD and STORE (R252, R253), the other commands and a reserved request (R254) are rejected. -/

namespace Sys2Proof.Machine

/-! ### A request that is no command -/

/-- A request word that decodes to no command is rejected at the state with the move taken (R88, R254). -/
theorem step_of_decode_error {s : State} {r : Req} {rest : List HostMove} {e : DecodeError} (hidle : s.fsm = .idle)
    (hmoves : s.hostMoves = .command r :: rest) (hdec : decode r = .error e) :
    step s = .next (({ s with hostMoves := rest } : State).respond .illegalCommand .none) := by
  have hfetch : fetch s = .illegal { s with hostMoves := rest } := by simp [fetch, hmoves, hidle, hdec]
  rw [step, hfetch]
  rfl

/-- Settles O8: a word whose top field is above 5 decodes to no command. -/
theorem stepRejectsReservedOpcode : Obligations.StepRejectsReservedOpcode := by
  intro s r rest hidle hmoves hop
  have hdec := decode_reserved (r := r) (by rwa [opField_toNat])
  exact ⟨step_of_decode_error hidle hmoves hdec, rfl⟩

/-! ### LOAD and STORE -/

section Access

variable {s : State} {addr : Word} {e : Status}

/-- The first check of LOAD and STORE (R253, R258). -/
theorem admitAccess_of_not_configured (hc : s.configured = false) :
    admitAccess addr s = .ok (.rejected .sequenceError) := by simp [admitAccess, hc]

/-- The second check of LOAD and STORE, on a block that ends past Memory (R62, R252). -/
theorem admitAccess_of_outside {sh : Shape} (hc : s.configured = true) (hs : s.geometry.shape? = some sh)
    (hout : Config.memSize < blockStart sh addr + sh.blockBytes) :
    admitAccess addr s = .ok (.rejected .outOfBounds) := by
  have hb : inBounds sh addr = false := decide_eq_false (Nat.not_le.2 hout)
  simp [admitAccess, hc, hs, hb]

/-- A LOAD that its checks reject answers their error and changes nothing else (R256). -/
theorem exec_load_of_rejected (h : admitAccess addr s = .ok (.rejected e)) :
    exec (.load addr) s = .next (s.respond e .none) :=
  complete_next_iff.2 ⟨reject e s, by rw [loadWork, h], rfl⟩

/-- A STORE that its checks reject answers their error and changes nothing else (R256). -/
theorem exec_store_of_rejected (value : Word) (h : admitAccess addr s = .ok (.rejected e)) :
    exec (.store addr value) s = .next (s.respond e .none) :=
  complete_next_iff.2 ⟨reject e s, by rw [storeWork, h], rfl⟩

end Access

/-- Settles O33: LOAD and STORE by their two checks, CONFIGURE and DUMP_MEMORY by the outcomes of O24 and O37. -/
theorem rejectionConditions : Obligations.RejectionConditions := by
  intro s sh addr x bs nb nw
  obtain ⟨hconfigured, hinvalid, -⟩ := configureOutcomes s bs nb nw
  refine ⟨fun hc => ?_, hconfigured, hinvalid, fun hc hs hout => ?_, (dumpMemoryReturnsBytes s addr x).2,
    rfl, rfl, rfl, rfl, rfl, rfl, rfl, fun _ => Iff.rfl⟩
  · have hrej := admitAccess_of_not_configured (addr := addr) hc
    exact ⟨exec_load_of_rejected hrej, exec_store_of_rejected x hrej⟩
  · have hrej := admitAccess_of_outside hc hs hout
    exact ⟨exec_load_of_rejected hrej, exec_store_of_rejected x hrej⟩

end Sys2Proof.Machine

namespace Sys2Proof.Safety

open Sys2Proof.Machine

/-! ### What an error leaves unchanged -/

/-- HIT and MISS are no errors (R94). -/
theorem isError_status (o : HitMiss) : o.status.isError = false := by
  cases o <;> rfl

/-- How a command that took `s` to `t` was answered: it was rejected, which changes nothing but the response (R256), or
it was answered with a status that is no error. -/
inductive Answered (s t : State) : Prop where
  | rejected (e : Status) (unchanged : t = s.respond e .none)
  | accepted (s' : State) (e : Status) (p : Payload) (noError : e.isError = false) (response : t = s'.respond e p)

/-- A LOAD or STORE that passes its checks answers HIT or MISS (R153, R181). -/
theorem exec_access_answered {i : Instr} {addr : Word} {s t : State} (hi : accessAddr? i = some addr)
    (h : exec i s = .next t) : Answered s t := by
  rcases exec_access_cases hi h with ⟨e, -, ht⟩ | ⟨sh, _, _, _, _, v, -, -, -, -, -, -, ht⟩
  · exact .rejected e ht
  · exact .accepted _ _ (.word v) (isError_status (accessOutcome sh s addr)) ht

/-- Every error is the answer to a rejected command. -/
theorem exec_answered {i : Instr} {s t : State} (h : exec i s = .next t) : Answered s t := by
  cases i with
  | load addr => exact exec_access_answered rfl h
  | store addr v => exact exec_access_answered rfl h
  | configure bs nb nw =>
    rcases exec_configure_cases h with ⟨-, ht⟩ | ⟨-, -, ht⟩ | ⟨-, -, ht⟩
    · exact .rejected _ ht
    · exact .rejected _ ht
    · exact .accepted _ .done _ rfl ht
  | stats =>
    cases h
    exact .accepted s .done _ rfl rfl
  | dumpCache =>
    cases h
    exact .accepted s .done _ rfl rfl
  | dumpMemory addr n =>
    rcases Nat.lt_or_ge Config.memSize (addr.toNat + n.toNat) with hout | hin
    · rw [exec_dumpMemory, dumpMemoryWork_of_outside hout] at h
      cases h
      exact .rejected .outOfBounds rfl
    · rw [exec_dumpMemory, dumpMemoryWork_of_inside hin] at h
      cases h
      exact .accepted s .done _ rfl rfl

/-- Settles O35: a command that answers an error was rejected. -/
theorem rejectionChangesNothing : Obligations.RejectionChangesNothing := by
  intro i s t e p h hr he
  rcases exec_answered h with ⟨e', rfl⟩ | ⟨s', e', p', hno, rfl⟩
  · cases hr
    exact ⟨rfl, rfl⟩
  · cases hr
    cases he.symm.trans hno

end Sys2Proof.Safety
end

section
/-! The round trips of the encodings: request words (R85), the textual form of a command (R90), packed lines (R97). -/

namespace Sys2Proof

/-! ### Request words -/

@[simp] theorem aField_mkReq (op : BitVec 4) (a b c : Word) : aField (mkReq op a b c) = a := by
  have hb := b.isLt
  have hc := c.isLt
  apply BitVec.eq_of_toNat_eq
  rw [aField_eq_ofNat_div, mkReq_toNat, BitVec.toNat_ofNat]
  omega

@[simp] theorem bField_mkReq (op : BitVec 4) (a b c : Word) : bField (mkReq op a b c) = b := by
  have hc := c.isLt
  apply BitVec.eq_of_toNat_eq
  rw [bField_eq_ofNat_div, mkReq_toNat, BitVec.toNat_ofNat]
  omega

@[simp] theorem cField_mkReq (op : BitVec 4) (a b c : Word) : cField (mkReq op a b c) = c := by
  apply BitVec.eq_of_toNat_eq
  rw [cField_eq_ofNat, mkReq_toNat, BitVec.toNat_ofNat]
  omega

/-- The request word of a command has its opcode (R85). -/
theorem opField_encode (i : Instr) : opField (encode i) = opcodeOf i := by
  cases i <;> exact opField_mkReq ..

/-- The fields of a command's request word hold its operands (R85). -/
theorem withOperandsOf_encode (i : Instr) : i.withOperandsOf (encode i) = i := by
  cases i <;> simp [Instr.withOperandsOf, encode]

/-- Settles O2: the request word of a command has its opcode, and its fields hold the operands. -/
theorem decodeOfEncode : Obligations.DecodeOfEncode :=
  fun i _ => decode_ok_iff.2 ⟨opField_encode i, withOperandsOf_encode i⟩

/-- Settles O1: ten closed words, decoded. -/
theorem writtenRequestWordsDecode : Obligations.WrittenRequestWordsDecode := by
  unfold Obligations.WrittenRequestWordsDecode
  decide

/-! ### Operands as text (R90) -/

/-- The hexadecimal digit of a value reads back as the value. -/
theorem digit?_hexChar : ∀ n < 16, digit? 16 (hexChar n) = some n := by decide

theorem hexChar_ne_comma : ∀ n < 16, hexChar n ≠ ',' := by decide

/-- The eight digits of an operand's text are its digits in base 16. -/
theorem numeral?_operandText (w : Word) : numeral? (operandText w) = some w.toNat := by
  have hw := w.isLt
  have hdigit (k : Nat) : w.toNat / 2 ^ k % 16 < 16 := Nat.mod_lt _ (by decide)
  rw [operandText, List.map_cons, numeral?]
  simp only [List.map_cons, List.map_nil, digitsValue?, digit?_hexChar _ (hdigit _)]
  congr 1
  omega

/-- The word whose text is `p`, which may have blanks in front, stands between two commas. -/
structure OperandPart (p : List Char) (w : Word) : Prop where
  noComma : ',' ∉ p
  value : operand? p = some w

theorem operandPart_operandText (w : Word) : OperandPart (operandText w) w where
  noComma hmem := by
    rw [operandText, List.mem_cons, List.mem_cons, List.mem_map] at hmem
    rcases hmem with h | h | ⟨k, -, h⟩
    · exact absurd h (by decide)
    · exact absurd h (by decide)
    · exact hexChar_ne_comma _ (Nat.mod_lt _ (by decide)) h
  value := by
    change (match numeral? (operandText w) with
      | some n => if n < 2 ^ 32 then some (BitVec.ofNat 32 n) else none
      | none => none) = some w
    rw [numeral?_operandText]
    simp [w.isLt]

theorem OperandPart.blank {p : List Char} {w : Word} (h : OperandPart p w) : OperandPart (' ' :: p) w where
  noComma := List.not_mem_cons_of_ne_of_not_mem (by decide) h.noComma
  value := h.value

/-! ### Lists of operands -/

/-- A text without a comma is one part. -/
theorem splitCommas_of_not_mem {p : List Char} (hp : ',' ∉ p) : splitCommas p = [p] := by
  induction p with
  | nil => rfl
  | cons c cs ih =>
    rw [List.mem_cons, not_or] at hp
    obtain ⟨hc, hcs⟩ := hp
    simp [splitCommas, Ne.symm hc, ih hcs]

/-- The part before the first comma is cut off. -/
theorem splitCommas_append_comma {p : List Char} (hp : ',' ∉ p) (q : List Char) :
    splitCommas (p ++ ',' :: q) = p :: splitCommas q := by
  induction p with
  | nil => rfl
  | cons c cs ih =>
    rw [List.mem_cons, not_or] at hp
    obtain ⟨hc, hcs⟩ := hp
    simp [splitCommas, Ne.symm hc, ih hcs]

/-- The last operand of a list. -/
theorem OperandPart.last {p : List Char} {w : Word} (h : OperandPart p w) :
    operands? (splitCommas p) = some [w] := by
  rw [splitCommas_of_not_mem h.noComma, operands?, h.value]
  rfl

/-- An operand before the others of a list. -/
theorem OperandPart.comma {p q : List Char} {w : Word} {ws : List Word} (h : OperandPart p w)
    (hq : operands? (splitCommas q) = some ws) : operands? (splitCommas (p ++ ',' :: q)) = some (w :: ws) := by
  rw [splitCommas_append_comma h.noComma, operands?, h.value, hq]

/-! ### Commands as text -/

section Command

variable {name : List Char} (hname : '(' ∉ name)
include hname

theorem parseCommand_parts (body : List Char) :
    parseCommand (name ++ '(' :: body ++ [')'])
      = if body = [] then named? name [] else (operands? (splitCommas body)).bind (named? name) := by
  have hall : ∀ c ∈ name, (c != '(') = true := fun c hc => by simpa using fun h : c = '(' => hname (h ▸ hc)
  have htake : (name ++ '(' :: (body ++ [')'])).takeWhile (fun c => c != '(') = name := by
    rw [List.takeWhile_append_of_pos hall]
    simp
  have hdrop : (name ++ '(' :: (body ++ [')'])).dropWhile (fun c => c != '(') = '(' :: (body ++ [')']) := by
    rw [List.dropWhile_append_of_pos hall]
    rfl
  rw [List.append_assoc, List.cons_append, parseCommand, htake, hdrop]
  simp only [List.getLast?_concat, List.dropLast_concat, if_true]
  cases operands? (splitCommas body) <;> rfl

/-- A command of operands is its name with their list. -/
theorem parseCommand_operands {body : List Char} {ops : List Word}
    (hops : operands? (splitCommas body) = some ops) :
    parseCommand (name ++ '(' :: body ++ [')']) = named? name ops := by
  have hbody : body ≠ [] := by
    rintro rfl
    have hnone : operands? (splitCommas []) = none := by decide
    cases hnone.symm.trans hops
  rw [parseCommand_parts hname, if_neg hbody, hops, Option.bind_some]

end Command

section Text

variable (x y z : Word)

theorem text_store : (Instr.store x y).text
    = "store".toList ++ '(' :: (operandText x ++ ',' :: ' ' :: operandText y) ++ [')'] := by
  change "store(".toList ++ operandText x ++ ", ".toList ++ operandText y ++ [')'] = _
  simp only [List.append_assoc]
  rfl

theorem text_dumpMemory : (Instr.dumpMemory x y).text
    = "dump_memory".toList ++ '(' :: (operandText x ++ ',' :: ' ' :: operandText y) ++ [')'] := by
  change "dump_memory(".toList ++ operandText x ++ ", ".toList ++ operandText y ++ [')'] = _
  simp only [List.append_assoc]
  rfl

theorem text_configure : (Instr.configure x y z).text
    = "configure".toList
      ++ '(' :: (operandText x ++ ',' :: ' ' :: (operandText y ++ ',' :: ' ' :: operandText z)) ++ [')'] := by
  change "configure(".toList ++ operandText x ++ ", ".toList ++ operandText y ++ ", ".toList ++ operandText z
    ++ [')'] = _
  simp only [List.append_assoc]
  rfl

/-- The text of two operands reads back. -/
theorem operands?_two :
    operands? (splitCommas (operandText x ++ ',' :: ' ' :: operandText y)) = some [x, y] :=
  (operandPart_operandText x).comma (operandPart_operandText y).blank.last

/-- The text of three operands reads back. -/
theorem operands?_three :
    operands? (splitCommas (operandText x ++ ',' :: ' ' :: (operandText y ++ ',' :: ' ' :: operandText z)))
      = some [x, y, z] :=
  (operandPart_operandText x).comma
    ((operandPart_operandText y).blank.comma (operandPart_operandText z).blank.last)

end Text

/-- Settles O5: the text of a command is its name and the texts of its operands, each of which reads back. -/
theorem textOfCommandParses : Obligations.TextOfCommandParses := by
  intro i
  cases i with
  | stats => decide
  | dumpCache => decide
  | load addr =>
    exact parseCommand_operands (name := "load".toList) (by decide)
      (operandPart_operandText addr).last
  | store addr value =>
    rw [text_store, parseCommand_operands (name := "store".toList) (by decide) (operands?_two addr value)]
    rfl
  | dumpMemory addr length =>
    rw [text_dumpMemory, parseCommand_operands (name := "dump_memory".toList) (by decide) (operands?_two addr length)]
    rfl
  | configure bs nb nw =>
    rw [text_configure, parseCommand_operands (name := "configure".toList) (by decide) (operands?_three bs nb nw)]
    rfl

end Sys2Proof

namespace Sys2Proof.Machine

/-! ### Packed lines (R97) -/

/-- The bytes are added after the number in front of them. -/
theorem packData_acc (acc : Nat) (d : List Byte) : packData acc d = acc * 256 ^ d.length + packData 0 d := by
  induction d generalizing acc with
  | nil => simp [packData]
  | cons b bs ih =>
    rw [packData, packData, ih, ih (0 * 256 + b.toNat), List.length_cons, Nat.pow_succ]
    ring

/-- The bytes alone are digits in base 256. -/
theorem packData_lt (d : List Byte) : packData 0 d < 256 ^ d.length := by
  induction d with
  | nil => decide
  | cons b bs ih =>
    have hb : b.toNat + 1 ≤ 256 := b.isLt
    calc packData 0 (b :: bs) = b.toNat * 256 ^ bs.length + packData 0 bs := by
          rw [packData, packData_acc, Nat.zero_mul, Nat.zero_add]
      _ < (b.toNat + 1) * 256 ^ bs.length := by rw [Nat.add_mul]; omega
      _ ≤ 256 * 256 ^ bs.length := Nat.mul_le_mul_right _ hb
      _ = 256 ^ (b :: bs).length := by rw [List.length_cons, Nat.pow_succ, Nat.mul_comm]

/-- The number in front of the bytes is what their places leave. -/
theorem packData_div (acc : Nat) (d : List Byte) : packData acc d / 256 ^ d.length = acc := by
  rw [packData_acc, Nat.mul_comm, Nat.mul_add_div (Nat.pow_pos (by decide)), Nat.div_eq_of_lt (packData_lt d),
    Nat.add_zero]

/-- Byte `i` of a buffer is the digit at its place. -/
theorem packedByte_packData {d : List Byte} (acc : Nat) {i : Nat} (hi : i < d.length) :
    packedByte d.length (packData acc d) i = d[i] := by
  induction d generalizing acc i with
  | nil => exact absurd hi (Nat.not_lt_zero _)
  | cons b bs ih =>
    cases i with
    | zero =>
      apply BitVec.eq_of_toNat_eq
      have hb := b.isLt
      rw [packedByte, packData, List.length_cons, Nat.add_sub_cancel, Nat.sub_zero, Nat.pow_mul, packData_div,
        BitVec.toNat_ofNat, List.getElem_cons_zero]
      omega
    | succ j =>
      have hplace : (b :: bs).length - 1 - (j + 1) = bs.length - 1 - j := by rw [List.length_cons]; omega
      rw [packedByte, hplace, packData]
      exact ih (acc * 256 + b.toNat) (Nat.lt_of_succ_lt_succ hi)

/-- The flags, the tag and the timestamp of a line as the number in front of its bytes (R97). -/
def lineHeader (l : Line) : Nat :=
  ((l.valid.toNat * 2 + l.dirty.toNat) * 2 ^ 32 + l.tag.toNat) * 2 ^ 32 + l.timestamp.toNat

theorem lineHeader_lt (l : Line) : lineHeader l < 2 ^ 66 := by
  have hv := Bool.toNat_le l.valid
  have hd := Bool.toNat_le l.dirty
  have ht := l.tag.isLt
  have hs := l.timestamp.isLt
  unfold lineHeader
  omega

/-- A packed line is its header and its bytes, and fits its width (R97). -/
theorem packLine_toNat (l : Line) :
    (packLine l.data.length l).toNat = packData (lineHeader l) l.data := by
  have hsum : l.valid.toNat * 2 ^ (65 + 8 * l.data.length) + l.dirty.toNat * 2 ^ (64 + 8 * l.data.length)
      + l.tag.toNat * 2 ^ (32 + 8 * l.data.length) + l.timestamp.toNat * 2 ^ (8 * l.data.length) + packData 0 l.data
      = packData (lineHeader l) l.data := by
    rw [packData_acc (lineHeader l), show 256 = 2 ^ 8 from rfl, ← Nat.pow_mul]
    simp only [lineHeader, Nat.pow_add]
    ring
  rw [packLine, BitVec.toNat_ofNat, hsum]
  apply Nat.mod_eq_of_lt
  rw [Nat.pow_add, Nat.pow_mul]
  exact (Nat.div_lt_iff_lt_mul (Nat.pow_pos (by decide))).1 (by rw [packData_div]; exact lineHeader_lt l)

/-- Above its bytes a packed line holds the header (R97). -/
theorem packLine_div (l : Line) :
    (packLine l.data.length l).toNat / 2 ^ (8 * l.data.length) = lineHeader l := by
  rw [packLine_toNat, Nat.pow_mul, packData_div]

/-- The fields of the header, from the lowest: timestamp, tag, `dirty`, `valid`. -/
theorem lineHeader_fields (l : Line) :
    lineHeader l % 2 ^ 32 = l.timestamp.toNat ∧ lineHeader l / 2 ^ 32 % 2 ^ 32 = l.tag.toNat
      ∧ lineHeader l / 2 ^ 64 % 2 = l.dirty.toNat ∧ lineHeader l / 2 ^ 65 % 2 = l.valid.toNat := by
  have hv := Bool.toNat_le l.valid
  have hd := Bool.toNat_le l.dirty
  have ht := l.tag.isLt
  have hs := l.timestamp.isLt
  unfold lineHeader
  omega

/-- A number shifted below its low `m` bits and `k` more is its upper part shifted by `k`. -/
theorem div_two_pow_add (n k m : Nat) : n / 2 ^ (k + m) = n / 2 ^ m / 2 ^ k := by
  rw [Nat.add_comm, Nat.pow_add, Nat.div_div_eq_div_mul]

/-- Bit `k` above the bytes of a packed line is bit `k` of the header. -/
theorem packLine_getLsbD (l : Line) (k : Nat) :
    (packLine l.data.length l).getLsbD (k + 8 * l.data.length) = decide (lineHeader l / 2 ^ k % 2 = 1) := by
  rw [BitVec.getLsbD, Nat.testBit_eq_decide_div_mod_eq, div_two_pow_add, packLine_div]

/-- A field of 32 bits above the bytes of a packed line is that field of the header. -/
theorem packLine_extractLsb' (l : Line) (k : Nat) :
    ((packLine l.data.length l).extractLsb' (k + 8 * l.data.length) 32).toNat = lineHeader l / 2 ^ k % 2 ^ 32 := by
  rw [BitVec.extractLsb'_toNat, Nat.shiftRight_eq_div_pow, div_two_pow_add, packLine_div]

/-- Settles O6: above the bytes a packed line holds its header, whose fields are the line's; its bytes are digits. -/
theorem packedLineUnpacks : Obligations.PackedLineUnpacks := by
  rintro B l rfl
  obtain ⟨hstamp, htag, hdirty, hvalid⟩ := lineHeader_fields l
  have hbit (b : Bool) : decide (b.toNat = 1) = b := by cases b <;> rfl
  have hv : (packLine l.data.length l).getLsbD (65 + 8 * l.data.length) = l.valid := by
    rw [packLine_getLsbD, hvalid, hbit]
  have hd : (packLine l.data.length l).getLsbD (64 + 8 * l.data.length) = l.dirty := by
    rw [packLine_getLsbD, hdirty, hbit]
  have ht : (packLine l.data.length l).extractLsb' (32 + 8 * l.data.length) 32 = l.tag :=
    BitVec.eq_of_toNat_eq ((packLine_extractLsb' l 32).trans htag)
  have hs : (packLine l.data.length l).extractLsb' (8 * l.data.length) 32 = l.timestamp := by
    have h := packLine_extractLsb' l 0
    rw [Nat.zero_add, Nat.pow_zero, Nat.div_one, hstamp] at h
    exact BitVec.eq_of_toNat_eq h
  have hb : (List.range l.data.length).map (packedByte l.data.length (packLine l.data.length l).toNat) = l.data := by
    refine List.ext_getElem (by simp) fun i _ hi => ?_
    rw [List.getElem_map, List.getElem_range, packLine_toNat, packedByte_packData _ hi]
  rw [unpackLine, hv, hd, ht, hs, hb]

end Sys2Proof.Machine
end

section
/-! Logarithms (R110), and how an address and a block address are put together from their fields (R121 to R123). -/

namespace Sys2Proof.Machine

/-- Settles O12: `log2` as a relation is `n = 2 ^ k`. -/
theorem logarithmOnlyOfPowersOfTwo : Obligations.LogarithmOnlyOfPowersOfTwo := by
  refine ⟨log2?_two_pow, fun n hn => ?_⟩
  cases h : log2? n with
  | none => rfl
  | some k => exact absurd (log2?_some h) (hn k)

/-! ### Blocks and their fields -/

/-- Tags, sets and offsets use up the 32 bits of an address (R113). -/
theorem two_pow_tagBits_mul {sh : Shape} (hok : sh.Ok) : 2 ^ sh.tagBits * sh.numSets * sh.blockBytes = 2 ^ 32 := by
  have hbits : sh.tagBits + sh.indexBits + sh.offsetBits = 32 := by
    have hfits := hok.fits
    unfold Shape.tagBits
    omega
  rw [hok.sets, hok.block, ← Nat.pow_add, ← Nat.pow_add, hbits]

/-- A block number is below what the tag and index bits hold (R114). -/
theorem blockNumber_lt {sh : Shape} (hok : sh.Ok) (addr : Word) :
    blockNumber sh addr < 2 ^ sh.tagBits * sh.numSets := by
  rw [blockNumber_eq_div hok]
  exact Nat.div_lt_of_lt_mul (by rw [Nat.mul_comm, two_pow_tagBits_mul hok]; exact addr.isLt)

/-- The tag of an address is its block number above the set index, with nothing cut off (R116). -/
theorem tagOf_eq_div {sh : Shape} (hok : sh.Ok) (addr : Word) : tagOf sh addr = blockNumber sh addr / sh.numSets := by
  rw [tagOf, Nat.shiftRight_eq_div_pow, ← hok.sets]
  exact Nat.mod_eq_of_lt (Nat.div_lt_of_lt_mul (by rw [Nat.mul_comm]; exact blockNumber_lt hok addr))

/-- Tag and set index make up the block number (R121). -/
theorem tagOf_mul_add_setIndex {sh : Shape} (hok : sh.Ok) (addr : Word) :
    tagOf sh addr * sh.numSets + setIndex sh addr = blockNumber sh addr := by
  rw [tagOf_eq_div hok, setIndex, Nat.mul_comm, Nat.div_add_mod]

/-- The block that the tag and the set of an address name is the block that holds it (R123). -/
theorem blockAddressOf_tagOf_setIndex {sh : Shape} (hok : sh.Ok) (addr : Word) :
    blockAddressOf sh (tagOf sh addr) (setIndex sh addr) = blockStart sh addr := by
  rw [blockAddressOf, tagOf_mul_add_setIndex hok, blockStart_eq_mul hok, Nat.mul_comm]

theorem blockAddressOf_tagReg {sh : Shape} (hok : sh.Ok) (addr : Word) :
    blockAddressOf sh (tagReg sh addr).toNat (setIndex sh addr) = blockStart sh addr := by
  rw [tagReg_toNat, blockAddressOf_tagOf_setIndex hok]

/-- Every block that a tag and a set name lies below `2 ^ 32` (R122). -/
theorem blockAddressOf_add_le {sh : Shape} (hok : sh.Ok) {t st : Nat} (ht : t < 2 ^ sh.tagBits)
    (hst : st < sh.numSets) : blockAddressOf sh t st + sh.blockBytes ≤ 2 ^ 32 := by
  have hnumber : t * sh.numSets + st + 1 ≤ 2 ^ sh.tagBits * sh.numSets :=
    calc t * sh.numSets + st + 1 ≤ (t + 1) * sh.numSets := by rw [Nat.add_mul]; omega
      _ ≤ 2 ^ sh.tagBits * sh.numSets := Nat.mul_le_mul_right _ ht
  calc blockAddressOf sh t st + sh.blockBytes = (t * sh.numSets + st + 1) * sh.blockBytes := by
        rw [blockAddressOf, Nat.add_mul _ 1, Nat.one_mul]
    _ ≤ 2 ^ sh.tagBits * sh.numSets * sh.blockBytes := Nat.mul_le_mul_right _ hnumber
    _ = 2 ^ 32 := two_pow_tagBits_mul hok

/-- Settles O17: tag and set index make up the block number, block number and offset the address. -/
theorem addressRecomposes : Obligations.AddressRecomposes := by
  intro g sh addr hs
  have hok : sh.Ok := (Geometry.shape?_some hs).1
  refine ⟨?_, blockAddressOf_tagOf_setIndex hok addr, fun t st ht hst =>
    ⟨by rw [blockAddressOf, Nat.add_mul], blockAddressOf_add_le hok ht hst⟩⟩
  calc addr.toNat = blockAddressOf sh (tagOf sh addr) (setIndex sh addr) + offsetOf sh addr := by
        rw [blockAddressOf_tagOf_setIndex hok, blockStart_add_offsetOf]
    _ = _ := by rw [blockAddressOf, Nat.add_mul, hok.sets, hok.block, Nat.mul_assoc, ← Nat.pow_add]

/-- Blocks do not overlap: a byte address lies in the block of one tag and one set only (R122). -/
theorem block_unique {sh : Shape} {t t' st st' a : Nat} (hst : st < sh.numSets) (hst' : st' < sh.numSets)
    (hlo : blockAddressOf sh t st ≤ a) (hhi : a < blockAddressOf sh t st + sh.blockBytes)
    (hlo' : blockAddressOf sh t' st' ≤ a) (hhi' : a < blockAddressOf sh t' st' + sh.blockBytes) :
    t = t' ∧ st = st' := by
  have hnumber : t * sh.numSets + st = t' * sh.numSets + st' := by
    unfold blockAddressOf at hlo hhi hlo' hhi'
    rw [← Nat.succ_mul] at hhi hhi'
    exact (Nat.div_eq_of_lt_le hlo hhi).symm.trans (Nat.div_eq_of_lt_le hlo' hhi')
  have hset : st = st' := by
    have h := congrArg (· % sh.numSets) hnumber
    simpa only [Nat.mul_comm _ sh.numSets, Nat.mul_add_mod, Nat.mod_eq_of_lt hst, Nat.mod_eq_of_lt hst'] using h
  subst hset
  exact ⟨Nat.eq_of_mul_eq_mul_right (Nat.zero_lt_of_lt hst) (Nat.add_right_cancel hnumber), rfl⟩

end Sys2Proof.Machine
end

section
/-! A step (R6, R280, R281, R291), the state after reset (`10_state.md` section 9), and what the commands that do not
access leave alone (R205, R221, R230, R235). -/

namespace Sys2Proof.Machine

/-- Settles O7: the host's move is taken, decoded and run. -/
theorem stepRunsDecodedCommand : Obligations.StepRunsDecodedCommand := by
  intro s r rest i hidle hmoves hdec
  have hfetch : fetch s = .run i { s with hostMoves := rest } := by simp only [fetch, hmoves, hidle, hdec, if_true]
  rw [step, hfetch]

/-- Settles O9: with no move there is nothing to fetch, and with one in the middle of a command the block is busy. -/
theorem stepWithoutCommand : Obligations.StepWithoutCommand := by
  refine ⟨fun s hnil => ?_, fun s hmoves hbusy => ?_⟩
  · have hfetch : fetch s = .wait s := by simp only [fetch, hnil]
    rw [step, hfetch]
  · obtain ⟨m, rest, hcons⟩ := List.exists_cons_of_ne_nil hmoves
    have hfetch : fetch s = .busy := by simp only [fetch, hcons, if_neg hbusy]
    rw [step, hfetch]

/-- A reset between commands is applied (R280). -/
theorem step_of_reset {s : State} {rest : List HostMove} (hidle : s.fsm = .idle)
    (hmoves : s.hostMoves = .reset :: rest) :
    step s = .next ({ s with hostMoves := rest } : State).applyReset := by
  have hfetch : fetch s = .reset ({ s with hostMoves := rest } : State).applyReset := by
    simp only [fetch, hmoves, if_pos hidle]
  rw [step, hfetch]

/-- A Memory that lists no byte reads as MEM_INIT (R40). -/
theorem Memory.read_of_no_cells (init : List Byte) (a : Nat) : (Memory.mk [] init).read a = init.getD a 0#8 := rfl

/-- Settles O10: the reset event, whose Memory lists no byte. -/
theorem stepAppliesReset : Obligations.StepAppliesReset := by
  intro s rest hidle hmoves
  exact ⟨_, step_of_reset hidle hmoves, rfl, rfl, rfl, rfl, rfl, rfl, rfl, rfl, Memory.read_of_no_cells _, rfl, rfl⟩

/-- Settles O11: the rows of the reset table, field by field. -/
theorem resetState : Obligations.ResetState :=
  ⟨rfl, rfl, rfl, rfl, rfl, rfl, rfl, Memory.read_of_no_cells _, rfl, rfl⟩

/-! ### The commands that do not access -/

/-- Settles O36: the work of STATS. -/
theorem statsReturnsCounters : Obligations.StatsReturnsCounters := fun _ => rfl

/-- DUMP_CACHE completes in every state (R6). -/
theorem exec_dumpCache (s : State) :
    exec .dumpCache s = .next (s.respond .done (.lines (if s.configured then s.lines else []))) := rfl

/-- Settles O38: the lines of a configured block, none before CONFIGURE. -/
theorem dumpCacheReturnsLines : Obligations.DumpCacheReturnsLines := by
  refine fun s => ⟨fun hc => ?_, fun hc => ?_⟩
  · rw [exec_dumpCache, if_pos hc]
    rfl
  · rw [exec_dumpCache, if_neg (by simp [hc])]
    rfl

end Sys2Proof.Machine

namespace Sys2Proof.Safety

open Sys2Proof.Machine

/-- Everything a command that does not access can do: only a CONFIGURE that answers DONE writes more than the response
(R205, R221, R230, R235). -/
theorem exec_nonAccess_cases {i : Instr} {s t : State} (hi : accessAddr? i = none) (h : exec i s = .next t) :
    (∃ e p, t = s.respond e p)
    ∨ ∃ bs nb nw, i = .configure bs nb nw ∧ s.configured = false ∧ validGeometry bs nb nw = true
        ∧ t = (s.install bs nb nw).respond .done .none := by
  by_cases hcfg : ∃ bs nb nw, i = .configure bs nb nw
  · obtain ⟨bs, nb, nw, rfl⟩ := hcfg
    rcases exec_configure_cases h with ⟨-, ht⟩ | ⟨-, -, ht⟩ | ⟨hc, hv, ht⟩
    · exact .inl ⟨_, _, ht⟩
    · exact .inl ⟨_, _, ht⟩
    · exact .inr ⟨bs, nb, nw, rfl, hc, hv, ht⟩
  · exact .inl (exec_readOnly hi (fun bs nb nw he => hcfg ⟨bs, nb, nw, he⟩) h)

/-- Settles O39: CONFIGURE writes the geometry and the lines at most, the other three only the response. -/
theorem frameOfCommandsThatDoNotAccess : Obligations.FrameOfCommandsThatDoNotAccess := by
  intro i s t hi h
  rcases exec_nonAccess_cases hi h with ⟨e, p, rfl⟩ | ⟨bs, nb, nw, rfl, -, -, rfl⟩
  · exact ⟨fun _ => rfl, rfl, rfl, rfl, rfl, rfl, fun _ => ⟨rfl, rfl, rfl⟩⟩
  · exact ⟨fun _ => rfl, rfl, rfl, rfl, rfl, rfl, fun hne => absurd rfl (hne bs nb nw)⟩

/-- The state after reset is in form. -/
theorem formed_reset : Formed State.reset where
  idle := rfl
  mem := State.reset_mem_wf
  unconfigured _ := rfl
  configured h := nomatch h

/-- Settles O45: after reset there are no lines, and the counters are 0. -/
theorem invariantsHoldAtReset : Obligations.InvariantsHoldAtReset :=
  ⟨formed_reset, ⟨formed_reset, fun _ h => nomatch h⟩, ⟨.nil, fun _ h => nomatch h⟩, rfl⟩

end Sys2Proof.Safety
end

section
/-! What an access does to a block in form, said once: the line it leaves, by path (R140), and what stays. -/

namespace Sys2Proof.Safety

open Sys2Proof.Machine

/-- The four paths of an access of `addr` that uses the line `l` (R140): the line with its block in place, and the
Memory it leaves. -/
inductive InPlace (sh : Shape) (s : State) (addr : Word) (l : Line) : Line → Memory → Prop where
  | hit (found : find (waysOf sh s addr) (tagReg sh addr) = some (accessWay sh s addr)) (valid : l.valid = true)
      (tag : l.tag = tagReg sh addr) : InPlace sh s addr l (l.stamp s.cycles) s.mem
  | free (miss : find (waysOf sh s addr) (tagReg sh addr) = none)
      (way : firstFree (waysOf sh s addr) = some (accessWay sh s addr)) (empty : l = Line.empty sh.blockBytes) :
      InPlace sh s addr l
        (l.filled (tagReg sh addr) s.cycles (s.mem.readBytes (blockStart sh addr) sh.blockBytes)) s.mem
  | clean (miss : find (waysOf sh s addr) (tagReg sh addr) = none) (full : firstFree (waysOf sh s addr) = none)
      (valid : l.valid = true) (clean : l.dirty = false) :
      InPlace sh s addr l
        (l.filled (tagReg sh addr) s.cycles (s.mem.readBytes (blockStart sh addr) sh.blockBytes)) s.mem
  | writtenBack (m : Memory) (miss : find (waysOf sh s addr) (tagReg sh addr) = none)
      (full : firstFree (waysOf sh s addr) = none) (valid : l.valid = true) (dirty : l.dirty = true)
      (inside : blockAddressOf sh l.tag.toNat (setIndex sh addr) + l.data.length ≤ Config.memSize)
      (mem : m = s.mem.writeBytes (blockAddressOf sh l.tag.toNat (setIndex sh addr)) l.data) :
      InPlace sh s addr l
        (l.clearDirty.filled (tagReg sh addr) s.cycles (m.readBytes (blockStart sh addr) sh.blockBytes)) m

/-- What the command does with the line `b` that holds its block (R163, R184, R186): a LOAD reads its word `v` and
leaves the line, a STORE writes its word `v` and makes the line dirty. -/
inductive Worded (sh : Shape) (addr : Word) (b : Line) (v : Word) : Instr → Line → Prop where
  | load (word : unbe32 (slice b.data (wordOffset sh addr) 4) = some v) : Worded sh addr b v (.load addr) b
  | store (room : wordOffset sh addr + 4 ≤ b.data.length) :
      Worded sh addr b v (.store addr v) (b.putWord (wordOffset sh addr) v).markDirty

/-- The state `t` after a LOAD or STORE `i` of `addr` that was not rejected: it turned the line `l` into `L`, by way of
the line `b` that holds the block, and answered the word `v`. -/
structure Accessed (i : Instr) (sh : Shape) (addr : Word) (s t : State) (l b L : Line) (v : Word) : Prop where
  configured : s.configured = true
  shape : s.geometry.shape? = some sh
  inside : inBounds sh addr = true
  lines : LinesOk sh s
  line : s.lines[accessIndex sh s addr]? = some l
  path : InPlace sh s addr l b t.mem
  word : Worded sh addr b v i L
  next : t = (account (accessOutcome sh s addr)
      ((s.setMem t.mem).setLine sh (setIndex sh addr) (accessWay sh s addr) L)).respond
        (accessOutcome sh s addr).status (.word v)

/-- The second check of LOAD and STORE fails on an address out of bounds (R62, R252). -/
theorem admitAccess_of_not_inBounds {addr : Word} {s : State} {sh : Shape} (hc : s.configured = true)
    (hs : s.geometry.shape? = some sh) (hb : inBounds sh addr = false) :
    admitAccess addr s = .ok (.rejected .outOfBounds) :=
  admitAccess_of_outside hc hs (Nat.not_le.1 (of_decide_eq_false hb))

/-- Everything a LOAD or STORE can do to a block in form (R153, R181). -/
theorem exec_accessed {i : Instr} {addr : Word} {s t : State} (hF : Formed s) (hi : accessAddr? i = some addr)
    (h : exec i s = .next t) :
    (∃ e, admitAccess addr s = .ok (.rejected e) ∧ t = s.respond e .none)
      ∨ ∃ sh l b L v, Accessed i sh addr s t l b L v := by
  rcases exec_access_cases hi h with ⟨e, hrej, ht⟩ | ⟨sh, l, b, L, m, v, hc, hs, hb, hl, hpath, hword, ht⟩
  · refine .inl ⟨e, ?_, ht⟩
    rcases hrej with ⟨rfl, hc⟩ | ⟨rfl, hc, sh, hs, hb⟩
    · exact admitAccess_of_not_configured hc
    · exact admitAccess_of_not_inBounds hc hs hb
  obtain ⟨sh', hs', hlines⟩ := hF.configured hc
  cases hs.symm.trans hs'
  obtain ⟨hlen, hempty⟩ : l.data.length = sh.blockBytes ∧ (l.valid = false → l = Line.empty sh.blockBytes) := by
    obtain ⟨hlen, -, hempty⟩ := hlines.2 l (List.mem_of_getElem? hl)
    exact ⟨hlen, hempty⟩
  have hway := (waysOf_accessWay (accessWay_lt (Geometry.shape?_some hs).1 hlines.1 addr)).trans hl
  have hm : t.mem = m := by rw [ht]; simp
  refine .inr ⟨sh, l, b, L, v, hc, hs, hb, hlines, hl, ?_, ?_, hm ▸ ht⟩
  · have hfull (hff : firstFree (waysOf sh s addr) = none) : l.valid = true :=
      firstFree_none hff (List.mem_of_getElem? hway)
    rw [hm]
    rcases hpath with ⟨hf, -, -, rfl, rfl⟩
      | ⟨hf, -, ⟨hff | ⟨hff, -, hd⟩, -, rfl, rfl⟩ | ⟨hff, -, hd, -, hin, -, hmem, rfl⟩⟩
    · obtain ⟨l₁, hl₁, hvalid, htag⟩ := find_some hf
      cases hway.symm.trans hl₁
      exact .hit hf hvalid htag
    · obtain ⟨l₁, hl₁, hinvalid, -⟩ := firstFree_some hff
      cases hway.symm.trans hl₁
      exact .free hf hff (hempty hinvalid)
    · exact .clean hf hff (hfull hff) hd
    · exact .writtenBack m hf hff (hfull hff) hd (hlen.symm ▸ hin) hmem
  · rcases hword with ⟨rfl, rfl, hv⟩ | ⟨rfl, hroom, rfl⟩
    · exact .load hv
    · exact .store hroom

/-- What a LOAD or STORE that passes its checks does. -/
theorem exec_accessed_of_admitted {i : Instr} {addr : Word} {s t : State} {sh : Shape} (hF : Formed s)
    (hi : accessAddr? i = some addr) (hc : s.configured = true) (hs : s.geometry.shape? = some sh)
    (hb : inBounds sh addr = true) (h : exec i s = .next t) : ∃ l b L v, Accessed i sh addr s t l b L v := by
  rcases exec_accessed hF hi h with ⟨e, hrej, -⟩ | ⟨sh', l, b, L, v, hA⟩
  · cases (admitAccess_admitted hc hs hb).symm.trans hrej
  · cases hs.symm.trans hA.shape
    exact ⟨l, b, L, v, hA⟩

/-! ### The line with its block in place -/

section InPlace

variable {sh : Shape} {s : State} {addr : Word} {l b : Line} {m : Memory} (h : InPlace sh s addr l b m)
include h

theorem InPlace.valid : b.valid = true := by
  cases h with
  | hit _ valid _ => exact valid
  | _ => rfl

theorem InPlace.tag : b.tag = tagReg sh addr := by
  cases h with
  | hit _ _ tag => exact tag
  | _ => rfl

theorem InPlace.stamp : b.timestamp = s.cycles := by
  cases h <;> rfl

theorem InPlace.data_length (hlen : l.data.length = sh.blockBytes) : b.data.length = sh.blockBytes := by
  cases h with
  | hit => exact hlen
  | _ => exact Memory.readBytes_length ..

/-- No access writes Memory out of canonical form. -/
theorem InPlace.mem_wf (hm : s.mem.wf) : m.wf := by
  cases h with
  | writtenBack m miss full valid dirty inside mem => exact mem ▸ Memory.writeBytes_wf _ _ hm inside
  | _ => exact hm

/-- Outside the block of the line that a miss replaces an access leaves Memory alone. -/
theorem InPlace.read_eq {a : Nat}
    (ha : find (waysOf sh s addr) (tagReg sh addr) = none → l.valid = true →
      ¬(blockAddressOf sh l.tag.toNat (setIndex sh addr) ≤ a
        ∧ a < blockAddressOf sh l.tag.toNat (setIndex sh addr) + l.data.length)) : m.read a = s.mem.read a := by
  cases h with
  | writtenBack m miss full valid dirty inside mem => rw [mem, Memory.read_writeBytes_outside _ (ha miss valid)]
  | _ => rfl

/-- After a miss the line holds its block of the Memory left. -/
theorem InPlace.data_of_miss (hf : find (waysOf sh s addr) (tagReg sh addr) = none) :
    b.data = m.readBytes (blockStart sh addr) sh.blockBytes := by
  cases h with
  | hit found _ _ => cases found.symm.trans hf
  | _ => rfl

theorem InPlace.found_or_missed :
    find (waysOf sh s addr) (tagReg sh addr) = some (accessWay sh s addr)
      ∨ find (waysOf sh s addr) (tagReg sh addr) = none := by
  cases h with
  | hit found _ _ => exact .inl found
  | free miss _ _ => exact .inr miss
  | clean miss _ _ _ => exact .inr miss
  | writtenBack _ miss _ _ _ _ _ => exact .inr miss

/-- A hit stamps a line that already held the block. -/
theorem InPlace.of_found {w : Nat} (hf : find (waysOf sh s addr) (tagReg sh addr) = some w) :
    l.valid = true ∧ l.tag = tagReg sh addr ∧ b = l.stamp s.cycles := by
  cases h with
  | hit _ valid tag => exact ⟨valid, tag, rfl⟩
  | free miss _ _ => cases hf.symm.trans miss
  | clean miss _ _ _ => cases hf.symm.trans miss
  | writtenBack _ miss _ _ _ _ _ => cases hf.symm.trans miss

/-- An access uses a valid line, or the first free way (R135). -/
theorem InPlace.valid_or_free : l.valid = true ∨ firstFree (waysOf sh s addr) = some (accessWay sh s addr) := by
  cases h with
  | hit _ valid _ => exact .inl valid
  | free _ way _ => exact .inr way
  | clean _ _ valid _ => exact .inl valid
  | writtenBack _ _ _ valid _ _ _ => exact .inl valid

/-- A line that is clean with its block in place equals its block of Memory, if it did before (R304). -/
theorem InPlace.data_of_clean (hok : sh.Ok)
    (hline : l.valid = true → l.dirty = false →
      l.data = s.mem.readBytes (blockAddressOf sh l.tag.toNat (setIndex sh addr)) sh.blockBytes)
    (hb : b.dirty = false) : b.data = m.readBytes (blockStart sh addr) sh.blockBytes := by
  cases h with
  | hit _ valid tag =>
    rw [← blockAddressOf_tagReg hok, ← tag]
    exact hline valid hb
  | _ => rfl

/-- A valid line that a miss replaces stands in Memory: it was clean, or it has been written back (R304, R307). -/
theorem InPlace.evicted_data (hlen : l.data.length = sh.blockBytes)
    (hline : l.valid = true → l.dirty = false →
      l.data = s.mem.readBytes (blockAddressOf sh l.tag.toNat (setIndex sh addr)) sh.blockBytes)
    (hf : find (waysOf sh s addr) (tagReg sh addr) = none) (hv : l.valid = true) :
    m.readBytes (blockAddressOf sh l.tag.toNat (setIndex sh addr)) sh.blockBytes = l.data := by
  cases h with
  | hit found _ _ => cases found.symm.trans hf
  | free _ _ empty =>
    rw [empty] at hv
    cases hv
  | clean _ _ _ clean => exact (hline hv clean).symm
  | writtenBack _ _ _ _ _ _ mem => rw [mem, ← hlen, Memory.readBytes_writeBytes]

end InPlace

/-! ### The line and the set after the access -/

section Accessed

variable {i : Instr} {sh : Shape} {addr : Word} {s t : State} {l b L : Line} {v : Word}
  (h : Accessed i sh addr s t l b L v)
include h

theorem Accessed.ok : sh.Ok := (Geometry.shape?_some h.shape).1

theorem Accessed.way_lt : accessWay sh s addr < sh.numWays := accessWay_lt h.ok h.lines.1 addr

theorem Accessed.set_lt : setIndex sh addr < sh.numSets := setIndex_lt h.ok addr

theorem Accessed.way : (waysOf sh s addr)[accessWay sh s addr]? = some l :=
  (waysOf_accessWay h.way_lt).trans h.line

/-- The line used was in order. -/
theorem Accessed.lineOk : LineOk sh l := h.lines.2 l (List.mem_of_getElem? h.line)

theorem Accessed.block_length : b.data.length = sh.blockBytes := h.path.data_length h.lineOk.1

theorem Accessed.valid : L.valid = true := by
  have hb := h.path.valid
  cases h.word <;> exact hb

theorem Accessed.tag : L.tag = tagReg sh addr := by
  have hb := h.path.tag
  cases h.word <;> exact hb

theorem Accessed.stamp : L.timestamp = s.cycles := by
  have hb := h.path.stamp
  cases h.word <;> exact hb

theorem Accessed.data_length : L.data.length = sh.blockBytes := by
  have hb := h.block_length
  cases h.word with
  | load => exact hb
  | store room => exact (splice_length room).trans hb

theorem Accessed.next_lines : t.lines = s.lines.set (accessIndex sh s addr) L := by
  rw [h.next, State.respond_lines, account_lines, State.setLine_lines, State.setMem_lines, accessIndex]

theorem Accessed.next_line : t.lines[accessIndex sh s addr]? = some L := by
  rw [h.next_lines, List.getElem?_set_self (List.getElem?_eq_some_iff.1 h.line).1]

theorem Accessed.next_configured : t.configured = s.configured := by
  rw [h.next, State.respond_configured, account_configured, State.setLine_configured, State.setMem_configured]

theorem Accessed.next_geometry : t.geometry = s.geometry := by
  rw [h.next, State.respond_geometry, account_geometry, State.setLine_geometry, State.setMem_geometry]

theorem Accessed.next_fsm : t.fsm = .idle := by rw [h.next, State.respond_fsm]

theorem Accessed.next_response : t.response = answered (accessOutcome sh s addr) v := by
  rw [h.next, State.respond_response, answered]

theorem Accessed.next_cycles : t.cycles = (account (accessOutcome sh s addr) s).cycles := by
  rw [h.next]
  cases accessOutcome sh s addr <;> rfl

/-- The access replaces one way of its set and leaves the other sets. -/
theorem Accessed.next_setLines (st : Nat) : setLines sh t.lines st
    = if st = setIndex sh addr then (waysOf sh s addr).set (accessWay sh s addr) L else setLines sh s.lines st := by
  rw [h.next_lines, accessIndex, setLines_set _ _ h.way_lt]
  split
  · next hst => rw [hst, waysOf]
  · rfl

theorem Accessed.next_waysOf : waysOf sh t addr = (waysOf sh s addr).set (accessWay sh s addr) L := by
  rw [waysOf, h.next_setLines, if_pos rfl]

/-- A line of a set after the access is the one it left, or it was there before. -/
theorem Accessed.mem_next_setLines {st : Nat} {l' : Line} (hl' : l' ∈ setLines sh t.lines st) :
    (st = setIndex sh addr ∧ l' = L)
    ∨ ∃ j, (setLines sh s.lines st)[j]? = some l' ∧ (st = setIndex sh addr → j ≠ accessWay sh s addr) := by
  obtain ⟨j, hj⟩ := List.mem_iff_getElem?.1 hl'
  rw [h.next_setLines] at hj
  split at hj
  · next hst =>
    by_cases hjw : j = accessWay sh s addr
    · rw [hjw] at hj
      rcases getElem?_set_cases hj with ⟨-, he⟩ | hold
      · exact .inl ⟨hst, he⟩
      · rw [List.getElem?_set_self (List.getElem?_eq_some_iff.1 h.way).1] at hj
        exact .inl ⟨hst, (Option.some.inj hj).symm⟩
    · rw [List.getElem?_set_ne (Ne.symm hjw)] at hj
      exact .inr ⟨j, hst ▸ hj, fun _ => hjw⟩
  · next hst => exact .inr ⟨j, hj, fun he => absurd he hst⟩

/-- The block is resident in the way the access used (R162). -/
theorem Accessed.resident : find (waysOf sh t addr) (tagReg sh addr) = some (accessWay sh s addr) := by
  have hwlt := (List.getElem?_eq_some_iff.1 h.way).1
  rw [find, findIdx?_eq_some_iff_lowest, h.next_waysOf]
  refine ⟨⟨L, List.getElem?_set_self hwlt, tagMatch_iff.2 ⟨h.valid, h.tag⟩⟩, fun j l' hj hl' => ?_⟩
  rw [List.getElem?_set_ne (Nat.ne_of_gt hj)] at hl'
  rcases h.path.found_or_missed with hf | hf
  · exact (findIdx?_eq_some_iff_lowest.1 hf).2 j l' hj hl'
  · exact Bool.eq_false_iff.2 fun hm =>
      find_none hf (List.mem_of_getElem? hl') (tagMatch_iff.1 hm).1 (tagMatch_iff.1 hm).2

end Accessed

end Sys2Proof.Safety
end

section
/-! Invariants (70_reset_and_hazards.md section 4): what every command keeps, every step keeps. The form of the state
(R11, R23, R28, R34), the counter law (R203), the geometry (R21). -/

namespace Sys2Proof.Safety

open Sys2Proof.Machine

/-! ### From commands to steps -/

/-- A command keeps what a response, a successful CONFIGURE, and a LOAD or STORE keep. -/
theorem exec_keeps {P : State → Prop} (respond : ∀ s e p, P s → P (s.respond e p))
    (install : ∀ s bs nb nw, s.configured = false → validGeometry bs nb nw = true → P s → P (s.install bs nb nw))
    (access : ∀ i addr s t, accessAddr? i = some addr → exec i s = .next t → P s → P t)
    {i : Instr} {s t : State} (h : exec i s = .next t) (hP : P s) : P t := by
  cases hi : accessAddr? i with
  | some addr => exact access i addr s t hi h hP
  | none =>
    rcases exec_nonAccess_cases hi h with ⟨e, p, rfl⟩ | ⟨bs, nb, nw, -, hc, hv, rfl⟩
    · exact respond _ _ _ hP
    · exact respond _ _ _ (install _ _ _ _ hc hv hP)

/-- A step keeps what taking a move, reset, a response and every command keep. -/
theorem step_keeps {P : State → Prop} (moves : ∀ s rest, P s → P { s with hostMoves := rest })
    (reset : ∀ s, P (State.applyReset s)) (respond : ∀ s e p, P s → P (s.respond e p))
    (command : ∀ i s t, exec i s = .next t → P s → P t) {s t : State} (h : step s = .next t) (hP : P s) : P t := by
  rcases step_cases h with ⟨-, rfl⟩ | ⟨rest, -, -, rfl⟩ | ⟨-, rest, -, -, -, -, rfl⟩ | ⟨-, rest, i, -, -, -, hexec⟩
  · exact hP
  · exact reset _
  · exact respond _ _ _ (moves _ _ hP)
  · exact command _ _ _ hexec (moves _ _ hP)

/-! ### The form of the state -/

/-- The form looks at the state register, Memory, the configuration, the geometry and the lines only. -/
theorem Formed.congr {s t : State} (hF : Formed s) (idle : t.fsm = .idle) (mem : t.mem = s.mem)
    (configured : t.configured = s.configured) (geometry : t.geometry = s.geometry) (lines : t.lines = s.lines) :
    Formed t where
  idle := idle
  mem := mem ▸ hF.mem
  unconfigured := by rw [configured, lines]; exact hF.unconfigured
  configured := by simpa only [configured, geometry, LinesOk, lines] using hF.configured

/-- A line as CONFIGURE creates it is in order (R41). -/
theorem lineOk_empty (sh : Shape) : LineOk sh (Line.empty sh.blockBytes) :=
  ⟨List.length_replicate, Nat.two_pow_pos _, fun _ => rfl⟩

/-- A successful CONFIGURE creates the lines of its geometry, in order (R23, R41). -/
theorem install_linesOk (s : State) {bs nb nw : Word} {sh : Shape} (hs : Geometry.shape? ⟨bs, nb, nw⟩ = some sh) :
    LinesOk sh (s.install bs nb nw) := by
  obtain ⟨-, -, hblock, -, hblocks⟩ := Geometry.shape?_some hs
  refine ⟨List.length_replicate.trans hblocks.symm, fun l hl => ?_⟩
  have hl : l = Line.empty bs.toNat := List.eq_of_mem_replicate hl
  have hblock : sh.blockBytes = bs.toNat := hblock
  rw [hl, ← hblock]
  exact lineOk_empty sh

/-- An access leaves every line in order (R28, R34, R42). -/
theorem Accessed.next_linesOk {i : Instr} {sh : Shape} {addr : Word} {s t : State} {l b L : Line} {v : Word}
    (h : Accessed i sh addr s t l b L v) : LinesOk sh t := by
  have hL : LineOk sh L := by
    refine ⟨h.data_length, ?_, fun hinv => absurd h.valid (by simp [hinv])⟩
    rw [h.tag, tagReg_toNat]
    exact Nat.mod_lt _ (Nat.two_pow_pos _)
  rw [LinesOk, h.next_lines]
  refine ⟨List.length_set.trans h.lines.1, fun l' hl' => ?_⟩
  rcases List.mem_or_eq_of_mem_set hl' with hold | rfl
  · exact h.lines.2 l' hold
  · exact hL

theorem Accessed.formed {i : Instr} {sh : Shape} {addr : Word} {s t : State} {l b L : Line} {v : Word}
    (h : Accessed i sh addr s t l b L v) (hF : Formed s) : Formed t where
  idle := h.next_fsm
  mem := h.path.mem_wf hF.mem
  unconfigured hc := by rw [h.next_configured, h.configured] at hc; cases hc
  configured _ := ⟨sh, h.next_geometry ▸ h.shape, h.next_linesOk⟩

theorem formed_install {s : State} {bs nb nw : Word} (hv : validGeometry bs nb nw = true) (hF : Formed s) :
    Formed (s.install bs nb nw) := by
  obtain ⟨sh, hs⟩ := Geometry.exists_shape?_of_valid (g := ⟨bs, nb, nw⟩) hv
  exact ⟨hF.idle, hF.mem, fun hc => Bool.noConfusion hc, fun _ => ⟨sh, hs, install_linesOk s hs⟩⟩

/-- Every command keeps the form of the state. -/
theorem formed_exec {i : Instr} {s t : State} (h : exec i s = .next t) (hF : Formed s) : Formed t := by
  refine exec_keeps (P := Formed) (fun s e p hF => hF.congr rfl rfl rfl rfl rfl)
    (fun s bs nb nw _ hv hF => formed_install hv hF) (fun i addr s t hi h hF => ?_) h hF
  rcases exec_accessed hF hi h with ⟨e, -, rfl⟩ | ⟨sh, l, b, L, v, hA⟩
  · exact hF.congr rfl rfl rfl rfl rfl
  · exact hA.formed hF

theorem formed_applyReset (s : State) : Formed s.applyReset where
  idle := rfl
  mem := State.applyReset_mem_wf s
  unconfigured _ := rfl
  configured h := nomatch h

/-- Settles O46: reset, CONFIGURE and an access each leave a state in form, and everything else leaves the block as it
was. -/
theorem formKeptByEveryStep : Obligations.FormKeptByEveryStep := fun _ _ hF h =>
  step_keeps (P := Formed) (fun _ _ hF => hF.congr hF.idle rfl rfl rfl rfl) formed_applyReset
    (fun _ _ _ hF => hF.congr rfl rfl rfl rfl rfl) (fun _ _ _ => formed_exec) h hF

/-! ### The counter law and the geometry -/

/-- The accounting step keeps the counter law (R203): it adds one count and its cycles. -/
theorem account_counterLaw (o : HitMiss) {s : State} (h : CounterLaw s) : CounterLaw (account o s) := by
  unfold CounterLaw at h ⊢
  cases o with
  | hit => rw [account_hit_cycles, account_hit_hits, account_hit_misses, h, Config.cyclesHit, add_mul, BitVec.one_mul,
    add_right_comm]
  | miss => rw [account_miss_cycles, account_miss_hits, account_miss_misses, h, Config.cyclesMiss, add_mul,
    BitVec.one_mul, add_assoc]

/-- Every command keeps the counter law (R203). -/
theorem exec_counterLaw {i : Instr} {s t : State} (h : exec i s = .next t) (hlaw : CounterLaw s) : CounterLaw t := by
  obtain ⟨s', p, ⟨hhits, hmisses, hcycles⟩, ht⟩ := exec_accounting_cases h
  have hlaw' : CounterLaw s' := by rw [CounterLaw, hhits, hmisses, hcycles]; exact hlaw
  rcases ht with ⟨e, -, rfl⟩ | ⟨o, rfl⟩
  · exact hlaw'
  · exact account_counterLaw o hlaw'

/-- Settles O51: only the accounting step and reset write the counters. -/
theorem counterLawKept : Obligations.CounterLawKept := fun _ _ hlaw h =>
  step_keeps (P := CounterLaw) (fun _ _ hlaw => hlaw) (fun _ => rfl) (fun _ _ _ hlaw => hlaw)
    (fun _ _ _ => exec_counterLaw) h hlaw

/-- What a command does to the configuration, the geometry and the number of lines: nothing, unless it is a CONFIGURE of
an unconfigured block that answers DONE (R21, R23, R225). -/
theorem exec_geometry_cases {i : Instr} {s t : State} (h : exec i s = .next t) :
    (t.configured = s.configured ∧ t.geometry = s.geometry ∧ t.lines.length = s.lines.length)
    ∨ ∃ bs nb nw, i = .configure bs nb nw ∧ s.configured = false ∧ t.geometry = ⟨bs, nb, nw⟩
        ∧ t.response = some ⟨.done, .none⟩ := by
  cases hi : accessAddr? i with
  | some addr =>
    left
    rcases exec_access_cases hi h with ⟨e, -, rfl⟩ | ⟨sh, l, b, L, m, v, -, -, -, -, -, -, rfl⟩
    · exact ⟨rfl, rfl, rfl⟩
    · simp
  | none =>
    rcases exec_nonAccess_cases hi h with ⟨e, p, rfl⟩ | ⟨bs, nb, nw, he, hc, -, rfl⟩
    · exact .inl ⟨rfl, rfl, rfl⟩
    · exact .inr ⟨bs, nb, nw, he, hc, rfl, rfl⟩

/-- Settles O42: of the commands only a first CONFIGURE writes the geometry, and of the other steps only reset. -/
theorem geometryIsImmutable : Obligations.GeometryIsImmutable := by
  refine ⟨fun i s t h => ?_, fun s t hc h hreset => ?_⟩
  · rcases exec_geometry_cases h with ⟨-, hgeo, -⟩ | hcfg
    · exact .inl hgeo
    · exact .inr hcfg
  · rcases step_cases h with ⟨-, rfl⟩ | ⟨rest, -, hm, -⟩ | ⟨-, rest, -, -, -, -, rfl⟩ | ⟨-, rest, i, -, -, -, hexec⟩
    · exact ⟨hc, rfl, rfl⟩
    · exact absurd hm (hreset rest)
    · exact ⟨hc, rfl, rfl⟩
    · rcases exec_geometry_cases hexec with ⟨hconf, hgeo, hlen⟩ | ⟨-, -, -, -, hno, -⟩
      · exact ⟨hconf.trans hc, hgeo, hlen⟩
      · cases hc.symm.trans hno

end Sys2Proof.Safety
end

section
/-! The invariants of the lines (R301 to R305): an access replaces one line, and writes Memory at the block of the line
it evicts only. -/

namespace Sys2Proof.Safety

open Sys2Proof.Machine

/-! ### Pairwise laws of a list with one element replaced -/

/-- A list that meets a pairwise law still does with an element replaced by one that meets it with all others. -/
theorem pairwise_set {α : Type} {R : α → α → Prop} {xs : List α} {w : Nat} {x : α} (h : xs.Pairwise R)
    (before : ∀ j < w, ∀ a, xs[j]? = some a → R a x) (after : ∀ j, w < j → ∀ a, xs[j]? = some a → R x a) :
    (xs.set w x).Pairwise R := by
  rw [List.pairwise_iff_getElem] at h ⊢
  intro j k hj hk hjk
  rw [List.length_set] at hj hk
  rw [List.getElem_set, List.getElem_set]
  by_cases hjw : w = j
  · rw [if_pos hjw, if_neg (by omega)]
    exact after k (by omega) _ (List.getElem?_eq_getElem hk)
  · rw [if_neg hjw]
    by_cases hkw : w = k
    · rw [if_pos hkw]
      exact before j (by omega) _ (List.getElem?_eq_getElem hj)
    · rw [if_neg hkw]
      exact h j k hj hk hjk

/-- A symmetric law that holds pairwise holds of any two places. -/
theorem pairwise_getElem? {α : Type} {R : α → α → Prop} {xs : List α} (hsymm : ∀ a b, R a b → R b a)
    (h : xs.Pairwise R) {j k : Nat} {a b : α} (ha : xs[j]? = some a) (hb : xs[k]? = some b) (hjk : j ≠ k) : R a b := by
  obtain ⟨hj, rfl⟩ := List.getElem?_eq_some_iff.1 ha
  obtain ⟨hk, rfl⟩ := List.getElem?_eq_some_iff.1 hb
  rw [List.pairwise_iff_getElem] at h
  rcases Nat.lt_or_gt_of_ne hjk with hlt | hgt
  · exact h j k hj hk hlt
  · exact hsymm _ _ (h k j hk hj hgt)

/-- Two valid lines at different ways of a set have different tags (R303). -/
theorem TagsUnique.tag_ne {sh : Shape} {s : State} (hu : TagsUnique sh s) {st j k : Nat} {a b : Line}
    (hst : st < sh.numSets) (ha : (setLines sh s.lines st)[j]? = some a) (hb : (setLines sh s.lines st)[k]? = some b)
    (hjk : j ≠ k) (hva : a.valid = true) (hvb : b.valid = true) : a.tag ≠ b.tag :=
  pairwise_getElem? (fun _ _ h hx hy he => h hy hx he.symm) (hu st hst) ha hb hjk hva hvb

/-! ### What an access keeps -/

section Accessed

variable {i : Instr} {sh : Shape} {addr : Word} {s t : State} {l b L : Line} {v : Word}
  (h : Accessed i sh addr s t l b L v)
include h

/-- A miss replaces no line of the block it accesses. -/
theorem Accessed.tag_ne_of_miss (hf : find (waysOf sh s addr) (tagReg sh addr) = none) (hv : l.valid = true) :
    l.tag ≠ tagReg sh addr :=
  find_none hf (List.mem_of_getElem? h.way) hv

/-- No other valid way of the set holds the accessed block. -/
theorem Accessed.other_tag_ne (hu : TagsUnique sh s) {j : Nat} {l' : Line} (hl' : (waysOf sh s addr)[j]? = some l')
    (hj : j ≠ accessWay sh s addr) (hv : l'.valid = true) : l'.tag ≠ tagReg sh addr := by
  rcases h.path.found_or_missed with hf | hf
  · obtain ⟨l₁, hl₁, hvalid, htag⟩ := find_some hf
    exact htag ▸ hu.tag_ne h.set_lt hl' hl₁ hj hv hvalid
  · exact find_none hf (List.mem_of_getElem? hl') hv

/-- Memory is as it was in every block but that of a line which a miss replaces. -/
theorem Accessed.read_block_eq {t₀ st : Nat} (hst : st < sh.numSets)
    (hne : find (waysOf sh s addr) (tagReg sh addr) = none → l.valid = true →
      ¬(t₀ = l.tag.toNat ∧ st = setIndex sh addr)) {k : Nat} (hk : k < sh.blockBytes) :
    t.mem.read (blockAddressOf sh t₀ st + k) = s.mem.read (blockAddressOf sh t₀ st + k) := by
  refine h.path.read_eq fun hf hv ⟨hlo, hhi⟩ => hne hf hv ?_
  rw [h.lineOk.1] at hhi
  exact block_unique hst h.set_lt (Nat.le_add_right _ _) (Nat.add_lt_add_left hk _) hlo hhi

/-- Memory is as it was in the block of every other valid line. -/
theorem Accessed.readBytes_other_line (hu : TagsUnique sh s) {st j : Nat} {l' : Line} (hst : st < sh.numSets)
    (hl' : (setLines sh s.lines st)[j]? = some l') (hj : st = setIndex sh addr → j ≠ accessWay sh s addr)
    (hv' : l'.valid = true) :
    t.mem.readBytes (blockAddressOf sh l'.tag.toNat st) sh.blockBytes
      = s.mem.readBytes (blockAddressOf sh l'.tag.toNat st) sh.blockBytes := by
  refine Memory.readBytes_congr fun k hk => h.read_block_eq hst (fun _ hv ⟨htag, hset⟩ => ?_) hk
  subst hset
  exact hu.tag_ne hst hl' h.way (hj rfl) hv' hv (BitVec.eq_of_toNat_eq htag)

/-- Memory is as it was in the accessed block (R187). -/
theorem Accessed.read_accessed_block {k : Nat} (hk : k < sh.blockBytes) :
    t.mem.read (blockStart sh addr + k) = s.mem.read (blockStart sh addr + k) := by
  rw [← blockAddressOf_tagReg h.ok]
  exact h.read_block_eq h.set_lt
    (fun hf hv ⟨htag, _⟩ => h.tag_ne_of_miss hf hv (BitVec.eq_of_toNat_eq htag.symm)) hk

theorem Accessed.validWaysFirst (hfirst : ValidWaysFirst sh s) : ValidWaysFirst sh t := by
  intro st hst
  rw [h.next_setLines]
  split
  · refine pairwise_set (hfirst _ h.set_lt) (fun j hj a ha _ => ?_) (fun _ _ _ _ _ => h.valid)
    have hlater (hv : l.valid = true) : a.valid = true := by
      obtain ⟨hjlen, rfl⟩ := List.getElem?_eq_some_iff.1 ha
      obtain ⟨hwlen, rfl⟩ := List.getElem?_eq_some_iff.1 h.way
      exact List.pairwise_iff_getElem.1 (hfirst _ h.set_lt) _ _ hjlen hwlen hj hv
    rcases h.path.valid_or_free with hv | hff
    · exact hlater hv
    · obtain ⟨-, -, -, hlower⟩ := firstFree_some hff
      exact hlower j hj a ha
  · exact hfirst st hst

theorem Accessed.tagsUnique (hu : TagsUnique sh s) : TagsUnique sh t := by
  intro st hst
  rw [h.next_setLines]
  split
  · refine pairwise_set (hu _ h.set_lt) (fun j hj a ha hv _ => ?_) (fun j hj a ha _ hv => ?_)
    · exact h.tag ▸ h.other_tag_ne hu ha (Nat.ne_of_lt hj) hv
    · exact h.tag ▸ (h.other_tag_ne hu ha (Nat.ne_of_gt hj) hv).symm
  · exact hu st hst

theorem Accessed.blocksInside (hin : BlocksInside sh s) : BlocksInside sh t := by
  intro st hst l' hl' hv
  rcases h.mem_next_setLines hl' with ⟨rfl, rfl⟩ | ⟨j, hj, -⟩
  · rw [h.tag, blockAddressOf_tagReg h.ok]
    exact inBounds_iff.1 h.inside
  · exact hin st hst l' (List.mem_of_getElem? hj) hv

theorem Accessed.cleanMatchesMemory (hu : TagsUnique sh s) (hclean : CleanMatchesMemory sh s) :
    CleanMatchesMemory sh t := by
  intro st hst l' hl' hv hd
  rcases h.mem_next_setLines hl' with ⟨rfl, rfl⟩ | ⟨j, hj, hne⟩
  · rw [h.tag, blockAddressOf_tagReg h.ok]
    have hword := h.word
    cases hword with
    | load _ => exact h.path.data_of_clean h.ok (hclean _ h.set_lt l (List.mem_of_getElem? h.way)) hd
    | store _ => cases hd
  · rw [h.readBytes_other_line hu hst hj hne hv]
    exact hclean st hst l' (List.mem_of_getElem? hj) hv hd

theorem Accessed.cacheOk (hC : CacheOk sh s) : CacheOk sh t where
  first := h.validWaysFirst hC.first
  unique := h.tagsUnique hC.unique
  inside := h.blocksInside hC.inside
  clean := h.cleanMatchesMemory hC.unique hC.clean

end Accessed

/-! ### A block whose lines are all invalid -/

section Invalid

variable {s : State} (hinv : ∀ l ∈ s.lines, l.valid = false)
include hinv

theorem cacheOk_of_invalid (sh : Shape) : CacheOk sh s := by
  have hset {st : Nat} {l : Line} (hl : l ∈ setLines sh s.lines st) : ¬ l.valid = true := by
    rw [hinv l (mem_of_mem_setLines hl)]
    decide
  refine ⟨fun st _ => ?_, fun st _ => ?_, fun st _ l hl hv => absurd hv (hset hl),
    fun st _ l hl hv => absurd hv (hset hl)⟩
  · exact List.pairwise_of_forall_mem_list fun _ _ _ hb hv => absurd hv (hset hb)
  · exact List.pairwise_of_forall_mem_list fun _ ha _ _ hv => absurd hv (hset ha)

theorem stampsFresh_of_invalid : StampsFresh s := by
  have hline {l : Line} (hl : l ∈ s.lines) : ¬ l.valid = true := by
    rw [hinv l hl]
    decide
  exact ⟨List.pairwise_of_forall_mem_list fun _ ha _ _ hv => absurd hv (hline ha),
    fun l hl hv => absurd hv (hline hl)⟩

end Invalid

/-- Every line is invalid right after a CONFIGURE (R41). -/
theorem install_lines_invalid (s : State) (bs nb nw : Word) : ∀ l ∈ (s.install bs nb nw).lines, l.valid = false := by
  intro l hl
  rw [State.install_lines] at hl
  rw [List.eq_of_mem_replicate hl]
  rfl

theorem applyReset_lines_invalid (s : State) : ∀ l ∈ s.applyReset.lines, l.valid = false :=
  fun _ hl => absurd hl List.not_mem_nil

/-- The laws of the lines look at the lines and Memory only. -/
theorem CacheOk.congr {sh : Shape} {s t : State} (hC : CacheOk sh s) (lines : t.lines = s.lines) (mem : t.mem = s.mem) :
    CacheOk sh t where
  first := by rw [ValidWaysFirst, lines]; exact hC.first
  unique := by rw [TagsUnique, lines]; exact hC.unique
  inside := by rw [BlocksInside, lines]; exact hC.inside
  clean := by rw [CleanMatchesMemory, lines, mem]; exact hC.clean

/-! ### Every step keeps the invariants -/

theorem Inv.congr {s t : State} (hI : Inv s) (idle : t.fsm = .idle) (mem : t.mem = s.mem)
    (configured : t.configured = s.configured) (geometry : t.geometry = s.geometry) (lines : t.lines = s.lines) :
    Inv t where
  formed := hI.formed.congr idle mem configured geometry lines
  cache sh hc hs := (hI.cache sh (configured ▸ hc) (geometry ▸ hs)).congr lines mem

/-- Every command keeps the invariant. -/
theorem inv_exec {i : Instr} {s t : State} (h : exec i s = .next t) (hI : Inv s) : Inv t := by
  refine exec_keeps (P := Inv) (fun s e p hI => hI.congr rfl rfl rfl rfl rfl)
    (fun s bs nb nw _ hv hI =>
      ⟨formed_install hv hI.formed, fun sh _ _ => cacheOk_of_invalid (install_lines_invalid s bs nb nw) sh⟩)
    (fun i addr s t hi h hI => ⟨formed_exec h hI.formed, ?_⟩) h hI
  rcases exec_accessed hI.formed hi h with ⟨e, -, rfl⟩ | ⟨sh, l, b, L, v, hA⟩
  · exact fun sh hc hs => (hI.cache sh hc hs).congr rfl rfl
  · intro sh' _ hs'
    rw [hA.next_geometry, hA.shape] at hs'
    cases hs'
    exact hA.cacheOk (hI.cache sh hA.configured hA.shape)

/-- Settles O47: an access keeps the laws of the lines, and reset and CONFIGURE leave no valid line. -/
theorem invariantKeptByEveryStep : Obligations.InvariantKeptByEveryStep := fun _ _ hI h =>
  step_keeps (P := Inv) (fun _ _ hI => hI.congr hI.formed.idle rfl rfl rfl rfl)
    (fun s => ⟨formed_applyReset s, fun _ hc => Bool.noConfusion hc⟩) (fun _ _ _ hI => hI.congr rfl rfl rfl rfl rfl)
    (fun _ _ _ => inv_exec) h hI

/-- The form of the state with R303: the tags of every set are unique, whatever the shape. -/
structure FormedUnique (s : State) : Prop where
  formed : Formed s
  unique : ∀ sh, s.geometry.shape? = some sh → TagsUnique sh s

/-- Every command keeps the tags of a set unique. -/
theorem formedUnique_exec {i : Instr} {s t : State} (h : exec i s = .next t) (hU : FormedUnique s) :
    FormedUnique t := by
  refine exec_keeps (P := FormedUnique) (fun s e p hU => ⟨hU.formed.congr rfl rfl rfl rfl rfl, hU.unique⟩)
    (fun s bs nb nw _ hv hU =>
      ⟨formed_install hv hU.formed, fun sh _ => (cacheOk_of_invalid (install_lines_invalid s bs nb nw) sh).unique⟩)
    (fun i addr s t hi h hU => ⟨formed_exec h hU.formed, ?_⟩) h hU
  rcases exec_accessed hU.formed hi h with ⟨e, -, rfl⟩ | ⟨sh, l, b, L, v, hA⟩
  · exact hU.unique
  · intro sh' hs'
    rw [hA.next_geometry, hA.shape] at hs'
    cases hs'
    exact hA.tagsUnique (hU.unique sh hA.shape)

/-- Settles O48: a miss installs a tag that no valid way of the set holds. -/
theorem tagsStayUnique : Obligations.TagsStayUnique := by
  intro s t sh sh' hF hs hu h hs'
  have hU : FormedUnique s := ⟨hF, fun sh₁ hs₁ => by cases hs.symm.trans hs₁; exact hu⟩
  have hU' : FormedUnique t :=
    step_keeps (P := FormedUnique)
      (fun _ _ hU => ⟨hU.formed.congr hU.formed.idle rfl rfl rfl rfl, hU.unique⟩)
      (fun s => ⟨formed_applyReset s, fun sh _ => (cacheOk_of_invalid (applyReset_lines_invalid s) sh).unique⟩)
      (fun _ _ _ hU => ⟨hU.formed.congr rfl rfl rfl rfl rfl, hU.unique⟩) (fun _ _ _ => formedUnique_exec) h hU
  exact hU'.unique sh' hs'

/-! ### Timestamps -/

/-- The accounting step that does not wrap `cycles` advances it (R200). -/
theorem lt_account_cycles {o : HitMiss} {s : State} (hle : s.cycles.toNat ≤ (account o s).cycles.toNat) :
    s.cycles < (account o s).cycles := by
  cases o with
  | hit =>
    rw [account_hit_cycles, Config.cyclesHit] at hle ⊢
    bv_omega
  | miss =>
    rw [account_miss_cycles, Config.cyclesMiss] at hle ⊢
    bv_omega

/-- An access that does not wrap `cycles` stamps its line with the time, which is past all other stamps (R301). -/
theorem Accessed.stampsFresh {i : Instr} {sh : Shape} {addr : Word} {s t : State} {l b L : Line} {v : Word}
    (h : Accessed i sh addr s t l b L v) (hfresh : StampsFresh s) (hle : s.cycles.toNat ≤ t.cycles.toNat) :
    StampsFresh t := by
  obtain ⟨hdistinct, hpast⟩ := hfresh
  have hnow : s.cycles < t.cycles := by
    rw [h.next_cycles] at hle ⊢
    exact lt_account_cycles hle
  have hother {j : Nat} {a : Line} (ha : s.lines[j]? = some a) (hv : a.valid = true) :
      a.timestamp ≠ L.timestamp := fun he => by
    have hlt := hpast a (List.mem_of_getElem? ha) hv
    rw [he, h.stamp] at hlt
    exact BitVec.lt_irrefl _ hlt
  rw [StampsFresh, h.next_lines]
  refine ⟨pairwise_set hdistinct (fun _ _ _ ha hv _ => hother ha hv) (fun _ _ _ ha _ hv => (hother ha hv).symm),
    fun l' hl' hv => ?_⟩
  rcases List.mem_or_eq_of_mem_set hl' with hold | rfl
  · exact BitVec.lt_trans (hpast l' hold hv) hnow
  · exact h.stamp ▸ hnow

/-- A command that does not wrap `cycles` keeps the timestamps distinct and past (R301). -/
theorem stampsFresh_exec {i : Instr} {s t : State} (hF : Formed s) (h : exec i s = .next t) (hfresh : StampsFresh s)
    (hle : s.cycles.toNat ≤ t.cycles.toNat) : StampsFresh t := by
  cases hi : accessAddr? i with
  | some addr =>
    rcases exec_accessed hF hi h with ⟨e, -, rfl⟩ | ⟨sh, l, b, L, v, hA⟩
    · exact hfresh
    · exact hA.stampsFresh hfresh hle
  | none =>
    rcases exec_nonAccess_cases hi h with ⟨e, p, rfl⟩ | ⟨bs, nb, nw, -, -, -, rfl⟩
    · exact hfresh
    · exact stampsFresh_of_invalid (install_lines_invalid s bs nb nw)

/-- Settles O49: an access stamps its line with `cycles` and advances it; reset and CONFIGURE leave no valid line. -/
theorem timestampsStayDistinct : Obligations.TimestampsStayDistinct := by
  intro s t hF hfresh h hle
  rcases step_cases h with ⟨-, rfl⟩ | ⟨rest, -, -, rfl⟩ | ⟨-, rest, -, -, -, -, rfl⟩ | ⟨r, rest, i, -, hm, -, hexec⟩
  · exact hfresh
  · exact stampsFresh_of_invalid (applyReset_lines_invalid _)
  · exact hfresh
  · have hle : s.cycles.toNat ≤ t.cycles.toNat := hle.resolve_right fun ⟨_, hr⟩ => by cases hm.symm.trans hr
    exact stampsFresh_exec (s := { s with hostMoves := rest }) (hF.congr hF.idle rfl rfl rfl rfl) hexec hfresh hle

/-- Settles O50: the victim's timestamp is the smallest, and no other valid way has the same. -/
theorem lruVictimIsTheOldest : Obligations.LruVictimIsTheOldest := by
  intro s sh st w l hF hc hs hfresh hst hff hl hw
  have hne : setLines sh s.lines st ≠ [] := List.ne_nil_of_mem (List.mem_of_getElem? hl)
  obtain ⟨v, hv, hleast⟩ := lruVictimHasSmallestTimestamp.1 _ hne
  refine ⟨v, hv, Nat.lt_of_le_of_ne (hleast w l hl).1 fun he => ?_⟩
  have hdistinct : (setLines sh s.lines st).Pairwise
      (fun a b => a.valid = true → b.valid = true → a.timestamp ≠ b.timestamp) :=
    (hfresh.1.sublist (List.drop_sublist _ _)).sublist (List.take_sublist _ _)
  exact pairwise_getElem? (fun _ _ h hx hy he => h hy hx he.symm) hdistinct hv hl (Ne.symm hw)
    (firstFree_none hff (List.mem_of_getElem? hv)) (firstFree_none hff (List.mem_of_getElem? hl))
    (BitVec.eq_of_toNat_eq he)

end Sys2Proof.Safety
end

section
/-! LOAD and STORE to completion: the misses that replace a victim (R157 to R160, R185), and that every command and
every step completes (R17, R152). -/

namespace Sys2Proof.Safety

open Sys2Proof.Machine

/-! ### The line of a miss -/

/-- A clean line that is filled stays clean (R161). -/
theorem filled_of_clean {l : Line} (hd : l.dirty = false) (t now : Word) (d : List Byte) :
    l.filled t now d = ⟨true, false, t, now, d⟩ := by rw [Line.filled, hd]

section Miss

variable {s : State} {sh : Shape} {addr : Word} {l : Line} (hb : inBounds sh addr = true)
  (hf : find (waysOf sh s addr) (tagReg sh addr) = none) (hff : firstFree (waysOf sh s addr) = none)
  (hv : (waysOf sh s addr)[lruVictim (waysOf sh s addr)]? = some l)
include hb hf hff hv

/-- The access that replaces a clean victim (R159, R160). -/
theorem accessLine_cleanVictim (hd : l.dirty = false) :
    accessLine sh (setIndex sh addr) (tagReg sh addr) (blockStart sh addr) s
      = .ok ⟨.miss, lruVictim (waysOf sh s addr), s.setLine sh (setIndex sh addr) (lruVictim (waysOf sh s addr))
          ⟨true, false, tagReg sh addr, s.cycles, s.mem.readBytes (blockStart sh addr) sh.blockBytes⟩⟩ := by
  rw [← filled_of_clean hd]
  exact accessLine_clean hf hff rfl (getElem?_of_setLines hv).2 hd (inBounds_iff.1 hb)

/-- The access that writes back a dirty victim (R158, R160). -/
theorem accessLine_dirtyVictim (hI : Inv s) (hc : s.configured = true) (hs : s.geometry.shape? = some sh)
    (hd : l.dirty = true) {m : Memory}
    (hm : m = s.mem.writeBytes (blockAddressOf sh l.tag.toNat (setIndex sh addr)) l.data) :
    accessLine sh (setIndex sh addr) (tagReg sh addr) (blockStart sh addr) s
      = .ok ⟨.miss, lruVictim (waysOf sh s addr),
          (s.setMem m).setLine sh (setIndex sh addr) (lruVictim (waysOf sh s addr))
            ⟨true, false, tagReg sh addr, s.cycles, m.readBytes (blockStart sh addr) sh.blockBytes⟩⟩ := by
  have hl := (getElem?_of_setLines hv).2
  have hmem := List.mem_of_getElem? hv
  obtain ⟨hlen, -, -⟩ := hI.formed.lineOk hc hs hl
  have hinside := (hI.cache sh hc hs).inside _ (setIndex_lt (Geometry.shape?_some hs).1 addr) l hmem
    (firstFree_none hff hmem)
  exact accessLine_dirty hf hff rfl hl hd hlen hinside hm (inBounds_iff.1 hb)

end Miss

/-- Settles O27: the clean victim is filled, and the LOAD reads its word from the block. -/
theorem loadMissReplacesCleanVictim : Obligations.LoadMissReplacesCleanVictim := by
  intro s sh addr l hF hc hs hb hf hff hv hd
  exact exec_load_of_accessLine hc hs hb (getElem?_of_setLines hv).2 (Memory.readBytes_length _ _ _)
    (accessLine_cleanVictim hb hf hff hv hd)

/-- Settles O28: the dirty victim is written back inside Memory, then filled from what Memory became. -/
theorem loadMissWritesBackDirtyVictim : Obligations.LoadMissWritesBackDirtyVictim := by
  intro s sh addr l m hI hc hs hb hf hff hv hd hm
  exact exec_load_of_accessLine (s' := s.setMem m) hc hs hb (getElem?_of_setLines hv).2
    (Memory.readBytes_length _ _ _) (accessLine_dirtyVictim hb hf hff hv hI hc hs hd hm)

/-- Settles O30: the free way is filled, and the STORE writes its word on top. -/
theorem storeMissTakesFreeWay : Obligations.StoreMissTakesFreeWay := by
  intro s sh addr value w hF hc hs hb hf hff
  obtain ⟨l, hway, -, -⟩ := firstFree_some hff
  have hl := (getElem?_of_setLines hway).2
  exact exec_store_of_accessLine hc hs hb value hl (Memory.readBytes_length _ _ _)
    (accessLine_free hf hff hl (inBounds_iff.1 hb))

/-- Settles O31: the clean victim is filled, and the STORE writes its word on top. -/
theorem storeMissReplacesCleanVictim : Obligations.StoreMissReplacesCleanVictim := by
  intro s sh addr value l hF hc hs hb hf hff hv hd
  exact exec_store_of_accessLine hc hs hb value (getElem?_of_setLines hv).2 (Memory.readBytes_length _ _ _)
    (accessLine_cleanVictim hb hf hff hv hd)

/-- Settles O32: the dirty victim is written back and filled, and the STORE writes its word on top. -/
theorem storeMissWritesBackDirtyVictim : Obligations.StoreMissWritesBackDirtyVictim := by
  intro s sh addr value l m hI hc hs hb hf hff hv hd hm
  exact exec_store_of_accessLine (s' := s.setMem m) hc hs hb value (getElem?_of_setLines hv).2
    (Memory.readBytes_length _ _ _) (accessLine_dirtyVictim hb hf hff hv hI hc hs hd hm)

/-! ### Every command completes -/

/-- Under the invariant every access that passes its checks puts a whole block in a line (R154). -/
theorem exists_accessLine {s : State} {sh : Shape} {addr : Word} (hI : Inv s) (hc : s.configured = true)
    (hs : s.geometry.shape? = some sh) (hb : inBounds sh addr = true) :
    ∃ (o : HitMiss) (w : Nat) (s' : State) (l L : Line), s'.lines[lineIndex sh (setIndex sh addr) w]? = some l
      ∧ L.data.length = sh.blockBytes
      ∧ accessLine sh (setIndex sh addr) (tagReg sh addr) (blockStart sh addr) s
        = .ok ⟨o, w, s'.setLine sh (setIndex sh addr) w L⟩ := by
  obtain ⟨sh', hs', hlines⟩ := hI.formed.configured hc
  cases hs.symm.trans hs'
  have hok := (Geometry.shape?_some hs).1
  cases hf : find (waysOf sh s addr) (tagReg sh addr) with
  | some w =>
    obtain ⟨l, hway, -, -⟩ := find_some hf
    have hl := (getElem?_of_setLines hway).2
    exact ⟨_, w, s, l, l.stamp s.cycles, hl, (hI.formed.lineOk hc hs hl).1, accessLine_hit hf hl⟩
  | none =>
    cases hff : firstFree (waysOf sh s addr) with
    | some w =>
      obtain ⟨l, hway, -, -⟩ := firstFree_some hff
      have hl := (getElem?_of_setLines hway).2
      exact ⟨_, w, s, l, _, hl, Memory.readBytes_length .., accessLine_free hf hff hl (inBounds_iff.1 hb)⟩
    | none =>
      have hlen : (waysOf sh s addr).length = sh.numWays := setLines_length hlines.1 (setIndex_lt hok addr)
      have hne : waysOf sh s addr ≠ [] := List.ne_nil_of_length_pos (hlen ▸ hok.ways)
      obtain ⟨l, hv⟩ : ∃ l, (waysOf sh s addr)[lruVictim (waysOf sh s addr)]? = some l :=
        ⟨_, List.getElem?_eq_getElem (lruVictim_lt hne)⟩
      have hl := (getElem?_of_setLines hv).2
      cases hd : l.dirty with
      | false => exact ⟨_, _, s, _, _, hl, Memory.readBytes_length .., accessLine_cleanVictim hb hf hff hv hd⟩
      | true =>
        obtain ⟨m, hm⟩ : ∃ m, m = s.mem.writeBytes (blockAddressOf sh l.tag.toNat (setIndex sh addr)) l.data :=
          ⟨_, rfl⟩
        exact ⟨_, _, s.setMem m, l, _, hl, Memory.readBytes_length ..,
          accessLine_dirtyVictim hb hf hff hv hI hc hs hd hm⟩

/-- In a state in form the checks of LOAD and STORE reject or admit (R258). -/
theorem admitAccess_of_formed {s : State} (hF : Formed s) (addr : Word) :
    (∃ e, admitAccess addr s = .ok (.rejected e))
      ∨ ∃ sh, s.configured = true ∧ s.geometry.shape? = some sh ∧ inBounds sh addr = true := by
  cases hc : s.configured with
  | false => exact .inl ⟨_, admitAccess_of_not_configured hc⟩
  | true =>
    obtain ⟨sh, hs, -⟩ := hF.configured hc
    cases hb : inBounds sh addr with
    | false => exact .inl ⟨_, admitAccess_of_not_inBounds hc hs hb⟩
    | true => exact .inr ⟨sh, rfl, hs, hb⟩

theorem exec_completes {s : State} (hI : Inv s) (i : Instr) : Completes (exec i s) := by
  cases i with
  | configure bs nb nw => exact ⟨_, rfl⟩
  | stats => exact ⟨_, rfl⟩
  | dumpMemory addr length => exact ⟨_, rfl⟩
  | dumpCache => exact ⟨_, rfl⟩
  | load addr =>
    rcases admitAccess_of_formed hI.formed addr with ⟨e, hrej⟩ | ⟨sh, hc, hs, hb⟩
    · exact ⟨_, exec_load_of_rejected hrej⟩
    · obtain ⟨o, w, s', l, L, hl, hlen, ha⟩ := exists_accessLine hI hc hs hb
      obtain ⟨v, -, hexec⟩ := exec_load_of_accessLine hc hs hb hl hlen ha
      exact ⟨_, hexec⟩
  | store addr value =>
    rcases admitAccess_of_formed hI.formed addr with ⟨e, hrej⟩ | ⟨sh, hc, hs, hb⟩
    · exact ⟨_, exec_store_of_rejected value hrej⟩
    · obtain ⟨o, w, s', l, L, hl, hlen, ha⟩ := exists_accessLine hI hc hs hb
      exact ⟨_, exec_store_of_accessLine hc hs hb value hl hlen ha⟩

theorem step_completes {s : State} (hI : Inv s) : Completes (step s) := by
  have hidle := hI.formed.idle
  cases hmoves : s.hostMoves with
  | nil => exact ⟨s, stepWithoutCommand.1 s hmoves⟩
  | cons move rest =>
    cases move with
    | reset => exact ⟨_, step_of_reset hidle hmoves⟩
    | command r =>
      cases hdec : decode r with
      | error e => exact ⟨_, step_of_decode_error hidle hmoves hdec⟩
      | ok i =>
        rw [stepRunsDecodedCommand s r rest i hidle hmoves hdec]
        exact exec_completes (s := { s with hostMoves := rest }) (hI.congr hidle rfl rfl rfl rfl) i

/-- Settles O52: the invariant gives every access a line with a whole block, inside Memory. -/
theorem everyCommandCompletes : Obligations.EveryCommandCompletes := fun _ hI => ⟨exec_completes hI, step_completes hI⟩

end Sys2Proof.Safety
end

section
/-! The errors of each command (R255), the frame of LOAD and STORE, and where a write-back goes (R162, R187, R307). -/

namespace Sys2Proof.Safety

open Sys2Proof.Machine

/-! ### Errors -/

/-- The statuses a LOAD or STORE answers (R252, R253, R153). -/
theorem exec_access_status {i : Instr} {addr : Word} {s t : State} {e : Status} {p : Payload}
    (hi : accessAddr? i = some addr) (h : exec i s = .next t) (hr : t.response = some ⟨e, p⟩) :
    (e = .sequenceError ∧ s.configured = false) ∨ (e = .outOfBounds ∧ s.configured = true) ∨ e = .hit ∨ e = .miss := by
  rcases exec_access_cases hi h with ⟨e', hrej, rfl⟩ | ⟨sh, _, _, _, _, _, -, -, -, -, -, -, rfl⟩
  · cases hr
    exact hrej.imp_right fun ⟨he, hc, _⟩ => .inl ⟨he, hc⟩
  · cases hr
    cases accessOutcome sh s addr
    · exact .inr (.inr (.inl rfl))
    · exact .inr (.inr (.inr rfl))

/-- The statuses CONFIGURE answers (R221, R227). -/
theorem exec_configure_status {s t : State} {bs nb nw : Word} {e : Status} {p : Payload}
    (h : exec (.configure bs nb nw) s = .next t) (hr : t.response = some ⟨e, p⟩) :
    (e = .sequenceError ∧ s.configured = true) ∨ (e = .configError ∧ s.configured = false) ∨ e = .done := by
  rcases exec_configure_cases h with ⟨hc, rfl⟩ | ⟨hc, -, rfl⟩ | ⟨-, -, rfl⟩ <;> cases hr
  · exact .inl ⟨rfl, hc⟩
  · exact .inr (.inl ⟨rfl, hc⟩)
  · exact .inr (.inr rfl)

/-- The statuses DUMP_MEMORY answers (R231). -/
theorem exec_dumpMemory_status {s t : State} {addr length : Word} {e : Status} {p : Payload}
    (h : exec (.dumpMemory addr length) s = .next t) (hr : t.response = some ⟨e, p⟩) :
    e = .done ∨ e = .outOfBounds := by
  obtain ⟨hin, hout⟩ := dumpMemoryReturnsBytes s addr length
  rcases Nat.lt_or_ge Config.memSize (addr.toNat + length.toNat) with hgt | hle
  · cases (hout hgt).symm.trans h
    cases hr
    exact .inr rfl
  · obtain ⟨bs, hexec, -⟩ := hin hle
    cases hexec.symm.trans h
    cases hr
    exact .inl rfl

/-- Settles O34: of the statuses each command answers, the errors are those of R255's columns. -/
theorem errorsOfEachCommand : Obligations.ErrorsOfEachCommand := by
  intro i s t e p h hr
  cases i with
  | configure bs nb nw =>
    rcases exec_configure_status h hr with ⟨rfl, hc⟩ | ⟨rfl, hc⟩ | rfl <;> simp [*]
  | load addr =>
    rcases exec_access_status rfl h hr with ⟨rfl, hc⟩ | ⟨rfl, hc⟩ | rfl | rfl <;> simp [*]
  | store addr v =>
    rcases exec_access_status rfl h hr with ⟨rfl, hc⟩ | ⟨rfl, hc⟩ | rfl | rfl <;> simp [*]
  | dumpMemory addr n =>
    rcases exec_dumpMemory_status h hr with rfl | rfl <;> simp
  | stats =>
    cases h
    cases hr
    simp [statsWork]
  | dumpCache =>
    cases h
    cases hr
    simp [dumpCacheWork]

/-! ### Frames -/

/-- Settles O40: an access replaces one line, and writes Memory at the block it writes back only. -/
theorem frameOfLoadAndStore : Obligations.FrameOfLoadAndStore := by
  intro i addr s t sh hi hs h
  rcases exec_access_cases hi h with ⟨e, -, rfl⟩ | ⟨sh', l, b, L, m, v, -, hs', -, -, hpath, -, rfl⟩
  · exact ⟨rfl, rfl, rfl, rfl, rfl, fun _ _ => rfl, fun _ _ => rfl⟩
  cases hs.symm.trans hs'
  have hmem : m.init = s.mem.init ∧ ∀ a, (∀ b, writtenBack? sh s addr = some b → ¬(b ≤ a ∧ a < b + sh.blockBytes)) →
      m.read a = s.mem.read a := by
    rcases hpath with ⟨-, -, -, rfl, -⟩ | ⟨-, -, ⟨-, -, rfl, -⟩ | ⟨-, -, -, hlen, -, hwb, rfl, -⟩⟩
    · exact ⟨rfl, fun _ _ => rfl⟩
    · exact ⟨rfl, fun _ _ => rfl⟩
    · exact ⟨Memory.writeBytes_init .., fun a ha => Memory.read_writeBytes_outside _ (hlen ▸ ha _ hwb)⟩
  obtain ⟨hinit, hread⟩ := hmem
  refine ⟨by simp, by simp, by simpa using hinit, by simp, by simp, fun k hk => ?_,
    fun a ha => by simpa using hread a ha⟩
  simp only [State.respond_lines, account_lines, State.setLine_lines, State.setMem_lines]
  exact List.getElem?_set_ne (Ne.symm hk)

/-- Settles O57: the write-back stores the whole buffer, and the fill writes no byte of Memory. -/
theorem writeBackReachesMemory : Obligations.WriteBackReachesMemory := by
  intro i addr s t sh b₀ hc hi hs hb h hwb
  rcases exec_access_cases hi h with ⟨e, hrej, -⟩ | ⟨sh', l, b, L, m, v, -, hs', -, hl, hpath, -, rfl⟩
  · rcases hrej with ⟨-, hno⟩ | ⟨-, -, sh', hs', hout⟩
    · cases hc.symm.trans hno
    · cases hs.symm.trans hs'
      cases hb.symm.trans hout
  cases hs.symm.trans hs'
  rcases hpath with ⟨-, -, hnone, -⟩ | ⟨-, -, ⟨-, hnone, -⟩ | ⟨-, -, -, hlen, -, hsome, rfl, -⟩⟩
  · cases hwb.symm.trans hnone
  · cases hwb.symm.trans hnone
  · cases hwb.symm.trans hsome
    exact ⟨l, hl, rfl, by simpa [hlen] using Memory.readBytes_writeBytes s.mem _ l.data⟩

/-- Settles O56: the way used holds the block, and no lower way does. -/
theorem accessedBlockIsResident : Obligations.AccessedBlockIsResident := by
  intro i addr s t sh hF hc hi hs hb h
  obtain ⟨l, b, L, v, hA⟩ := exec_accessed_of_admitted hF hi hc hs hb h
  obtain ⟨-, hhit, -⟩ := accessWay_hit hA.resident
  exact ⟨hA.resident, hhit⟩

/-- Settles O58: a STORE writes Memory at the block of a line it replaces only, which is another block. -/
theorem storeLeavesItsBlockOfMemory : Obligations.StoreLeavesItsBlockOfMemory := by
  intro s t sh addr v hI hc hs h k hk
  rcases exec_accessed hI.formed rfl h with ⟨e, -, rfl⟩ | ⟨sh', l, b, L, v, hA⟩
  · rfl
  · cases hs.symm.trans hA.shape
    exact hA.read_accessed_block hk

/-- Settles O55: the LOAD hits the line that the STORE left, and reads the word that the STORE wrote. -/
theorem storeThenLoadReturnsValue : Obligations.StoreThenLoadReturnsValue := by
  intro s t sh addr addr' v hF hc hs hb h hword
  obtain ⟨l, b, L, v', hA⟩ := exec_accessed_of_admitted hF rfl hc hs hb h
  have hs' : t.geometry.shape? = some sh := hA.next_geometry ▸ hs
  obtain ⟨l', u, hl', hu, hload⟩ := loadHitCompletes t sh addr _ (formed_exec h hF) (hA.next_configured.trans hc) hs' hb
    hA.resident
  have hL : l' = L := Option.some.inj (hl'.symm.trans hA.next_line)
  have huv : u = v := by
    have hw := hA.word
    cases hw with
    | store room =>
      subst hL
      have hslice : slice (splice b.data (wordOffset sh addr) (be32 v)) (wordOffset sh addr) 4 = be32 v :=
        slice_splice room
      change unbe32 (slice (splice b.data (wordOffset sh addr) (be32 v)) (wordOffset sh addr) 4) = some u at hu
      rw [hslice, unbe32_be32] at hu
      exact (Option.some.inj hu).symm
  rw [exec_load_eq_of_sameWord hword, hload, huv]
  exact ⟨_, rfl, rfl⟩

end Sys2Proof.Safety
end

section
/-! The cache is transparent (R66): the coherent view of a byte before and after an access. -/

namespace Sys2Proof.Safety

open Sys2Proof.Machine

/-! ### The view of a byte -/

section View

variable {sh : Shape} {s : State} {a : Word}

/-- The byte of a block that a valid line holds is the line's (R66). -/
theorem view_of_resident (hok : sh.Ok) (hu : TagsUnique sh s) {w : Nat} {l : Line}
    (hl : (waysOf sh s a)[w]? = some l) (hv : l.valid = true) (ht : l.tag = tagReg sh a) :
    view sh s a = l.data[offsetOf sh a]? := by
  have hfind : find (waysOf sh s a) (tagReg sh a) = some w := by
    cases hf : find (waysOf sh s a) (tagReg sh a) with
    | none => exact absurd ht (find_none hf (List.mem_of_getElem? hl) hv)
    | some w' =>
      obtain ⟨l', hl', hv', ht'⟩ := find_some hf
      by_contra hne
      have hw : w' ≠ w := fun he => hne (by rw [he])
      exact hu.tag_ne (setIndex_lt hok a) hl' hl hw hv' hv (ht'.trans ht.symm)
  rw [view, hfind]
  simp only [(getElem?_of_setLines hl).2]

/-- The byte of a block that no valid line holds is Memory's (R66). -/
theorem view_of_absent (h : ∀ l ∈ waysOf sh s a, l.valid = true → l.tag ≠ tagReg sh a) :
    view sh s a = some (s.mem.read a.toNat) := by
  have hfind : find (waysOf sh s a) (tagReg sh a) = none := by
    cases hf : find (waysOf sh s a) (tagReg sh a) with
    | none => rfl
    | some w =>
      obtain ⟨l, hl, hv, ht⟩ := find_some hf
      exact absurd ht (h l (List.mem_of_getElem? hl) hv)
  rw [view, hfind]

/-- The block of an address is resident in some way of its set, or in none. -/
theorem resident_or_absent (sh : Shape) (s : State) (a : Word) :
    (∃ (w : Nat) (l : Line), (waysOf sh s a)[w]? = some l ∧ l.valid = true ∧ l.tag = tagReg sh a)
      ∨ ∀ l ∈ waysOf sh s a, l.valid = true → l.tag ≠ tagReg sh a := by
  cases hf : find (waysOf sh s a) (tagReg sh a) with
  | none => exact .inr fun l hl hv => find_none hf hl hv
  | some w =>
    obtain ⟨l, hl, hv, ht⟩ := find_some hf
    exact .inl ⟨w, l, hl, hv, ht⟩

end View

/-! ### Two addresses of one block -/

/-- Two addresses lie in one block: in one set and with one tag (R122). -/
structure SameBlock (sh : Shape) (a b : Word) : Prop where
  set : setIndex sh a = setIndex sh b
  tag : tagReg sh a = tagReg sh b

theorem SameBlock.of_sameWord {sh : Shape} {a b : Word} (hok : sh.Ok) (h : a.toNat / 4 = b.toNat / 4) :
    SameBlock sh a b := ⟨setIndex_eq_of_sameWord h hok, tagReg_eq_of_sameWord h hok⟩

theorem SameBlock.blockStart_eq {sh : Shape} {a b : Word} (hok : sh.Ok) (h : SameBlock sh a b) :
    blockStart sh a = blockStart sh b := by
  rw [← blockAddressOf_tagReg hok, ← blockAddressOf_tagReg hok, h.set, h.tag]

theorem SameBlock.waysOf_eq {sh : Shape} {a b : Word} (h : SameBlock sh a b) (s : State) :
    waysOf sh s a = waysOf sh s b := by rw [waysOf, waysOf, h.set]

/-- An address stands in the word of `b` exactly when it lies in its block, at one of the four offsets of the word. -/
theorem sameWord_iff_offsetOf {sh : Shape} {a b : Word} (hok : sh.Ok) (h : SameBlock sh a b) :
    a.toNat - a.toNat % 4 = b.toNat - b.toNat % 4
      ↔ wordOffset sh b ≤ offsetOf sh a ∧ offsetOf sh a < wordOffset sh b + 4 := by
  have ha := blockStart_add_offsetOf sh a
  have hb := blockStart_add_wordOffset hok b
  rw [h.blockStart_eq hok] at ha
  omega

/-- An address stands in its word at its remainder by four. -/
theorem offsetOf_eq_wordOffset_add {sh : Shape} (hok : sh.Ok) (a : Word) :
    offsetOf sh a = wordOffset sh a + a.toNat % 4 := by
  have ha := blockStart_add_offsetOf sh a
  have hw := blockStart_add_wordOffset hok a
  have hle := Nat.mod_le a.toNat 4
  omega

/-! ### The view after an access -/

section Accessed

variable {i : Instr} {sh : Shape} {addr : Word} {s t : State} {l b L : Line} {v : Word}
  (h : Accessed i sh addr s t l b L v)
include h

/-- After the access the view of the accessed block is the line it left. -/
theorem Accessed.view_after (hu : TagsUnique sh s) {a : Word} (ha : SameBlock sh a addr) :
    view sh t a = L.data[offsetOf sh a]? := by
  refine view_of_resident h.ok (h.tagsUnique hu) (w := accessWay sh s addr) ?_ h.valid (h.tag.trans ha.tag.symm)
  rw [ha.waysOf_eq, h.next_waysOf, List.getElem?_set_self (List.getElem?_eq_some_iff.1 h.way).1]

/-- Before the access the view of the accessed block is the line with the block in place. -/
theorem Accessed.view_before (hu : TagsUnique sh s) {a : Word} (ha : SameBlock sh a addr) :
    view sh s a = b.data[offsetOf sh a]? := by
  have hoff := offsetOf_lt h.ok a
  have hmem := h.read_accessed_block hoff
  rw [← ha.blockStart_eq h.ok, blockStart_add_offsetOf] at hmem
  rcases h.path.found_or_missed with hf | hf
  · obtain ⟨valid, tag, rfl⟩ := h.path.of_found hf
    exact view_of_resident (l := l) h.ok hu (ha.waysOf_eq s ▸ h.way) valid (tag.trans ha.tag.symm)
  · rw [view_of_absent, h.path.data_of_miss hf, Memory.readBytes_getElem?, if_pos hoff, ← ha.blockStart_eq h.ok,
      blockStart_add_offsetOf, hmem]
    rw [ha.waysOf_eq, ha.tag]
    exact fun l' hl' hv => find_none hf hl' hv

/-- The line of another block that stays in its way is there after the access. -/
theorem Accessed.other_way {a : Word} {w : Nat} (hw : ¬(setIndex sh a = setIndex sh addr ∧ w = accessWay sh s addr)) :
    (waysOf sh t a)[w]? = (waysOf sh s a)[w]? := by
  rw [waysOf, h.next_setLines]
  split
  · next hset =>
    rw [List.getElem?_set_ne fun he => hw ⟨hset, he.symm⟩, waysOf, waysOf, hset]
  · rfl

/-- A block that another block's access leaves without a line had none before, or has lost the line used. -/
theorem Accessed.absent_after {a : Word} (ha : ¬ SameBlock sh a addr)
    (hold : ∀ (j : Nat) (l' : Line), (waysOf sh s a)[j]? = some l' →
      ¬(setIndex sh a = setIndex sh addr ∧ j = accessWay sh s addr) → l'.valid = true → l'.tag ≠ tagReg sh a) :
    ∀ l' ∈ waysOf sh t a, l'.valid = true → l'.tag ≠ tagReg sh a := by
  intro l' hl' hv ht
  rcases h.mem_next_setLines hl' with ⟨hset, rfl⟩ | ⟨j, hj, hne⟩
  · exact ha ⟨hset, ht.symm.trans h.tag⟩
  · exact hold j l' hj (fun ⟨hset, hw⟩ => hne hset hw) hv ht

/-- The view of every other block is as it was: its line stays, or it stands in Memory. -/
theorem Accessed.view_other (hC : CacheOk sh s) {a : Word} (ha : ¬ SameBlock sh a addr) :
    view sh t a = view sh s a := by
  have hok := h.ok
  have hset := setIndex_lt hok a
  have hoff := offsetOf_lt hok a
  have hbyte : blockAddressOf sh (tagReg sh a).toNat (setIndex sh a) + offsetOf sh a = a.toNat := by
    rw [blockAddressOf_tagReg hok, blockStart_add_offsetOf]
  rcases resident_or_absent sh s a with ⟨w, l', hl', hv, ht⟩ | habsent
  · rw [view_of_resident hok hC.unique hl' hv ht]
    by_cases hw : setIndex sh a = setIndex sh addr ∧ w = accessWay sh s addr
    · obtain ⟨hsame, rfl⟩ := hw
      have hways : waysOf sh s a = waysOf sh s addr := by rw [waysOf, waysOf, hsame]
      cases h.way.symm.trans (hways ▸ hl')
      have hmiss : find (waysOf sh s addr) (tagReg sh addr) = none :=
        h.path.found_or_missed.resolve_left fun hf => by
          obtain ⟨-, htag, -⟩ := h.path.of_found hf
          exact ha ⟨hsame, ht.symm.trans htag⟩
      have hevicted := h.path.evicted_data h.lineOk.1 (hC.clean _ h.set_lt l (List.mem_of_getElem? h.way)) hmiss hv
      rw [view_of_absent (h.absent_after ha ?_), ← hevicted, Memory.readBytes_getElem?, if_pos hoff, ht, ← hsame, hbyte]
      intro j l' hj hne hv' he
      exact hC.unique.tag_ne hset hj hl' (fun hjw => hne ⟨hsame, hjw⟩) hv' hv (he.trans ht.symm)
    · exact view_of_resident hok (h.tagsUnique hC.unique) ((h.other_way hw).trans hl') hv ht
  · have hmem : t.mem.read a.toNat = s.mem.read a.toNat := by
      rw [← hbyte]
      refine h.read_block_eq hset (fun _ hv ⟨htag, hsame⟩ => ?_) hoff
      have hl : l ∈ waysOf sh s a := by
        rw [waysOf, hsame]
        exact List.mem_of_getElem? h.way
      exact habsent l hl hv (BitVec.eq_of_toNat_eq htag.symm)
    rw [view_of_absent habsent, view_of_absent (h.absent_after ha ?_), hmem]
    exact fun j l' hj _ hv => habsent l' (List.mem_of_getElem? hj) hv

end Accessed

/-! ### LOAD and STORE -/

/-- Four bytes are those of the word they make (R15). -/
theorem be32_of_unbe32 {bs : List Byte} {v : Word} (h : unbe32 bs = some v) : be32 v = bs := by
  match bs, h with
  | [b0, b1, b2, b3], h =>
    obtain ⟨v', hv', hnum⟩ := unbe32_eq_some_toNat b0 b1 b2 b3
    cases hv'.symm.trans h
    have h0 := b0.isLt
    have h1 := b1.isLt
    have h2 := b2.isLt
    have h3 := b3.isLt
    rw [be32_eq_ofNat_div, hnum]
    simp only [List.cons.injEq, and_true]
    refine ⟨?_, ?_, ?_, ?_⟩ <;>
    · apply BitVec.eq_of_toNat_eq
      rw [BitVec.toNat_ofNat]
      omega

/-- Byte `k` of the word that an address accesses lies in that word, at remainder `k` (R55). -/
theorem wordByte_toNat (addr : Word) {k : Nat} (hk : k < 4) :
    (wordByte addr k).toNat / 4 = addr.toNat / 4 ∧ (wordByte addr k).toNat % 4 = k := by
  have haddr := addr.isLt
  rw [wordByte, BitVec.toNat_ofNat, Nat.mod_eq_of_lt (by omega)]
  omega

/-- Settles O53: a LOAD leaves the line with its block in place, which holds the view of that block before and after. -/
theorem loadKeepsTheView : Obligations.LoadKeepsTheView := by
  intro s t sh addr hI hc hs h
  rcases exec_accessed hI.formed rfl h with ⟨e, hrej, rfl⟩ | ⟨sh', l, b, L, v, hA⟩
  · refine ⟨fun _ _ => rfl, fun hb => ?_⟩
    cases (admitAccess_admitted hc hs hb).symm.trans hrej
  cases hs.symm.trans hA.shape
  have hC := hI.cache sh hc hs
  have hok := hA.ok
  obtain ⟨hL, hv⟩ : L = b ∧ unbe32 (slice b.data (wordOffset sh addr) 4) = some v := by
    have hw := hA.word
    cases hw with
    | load word => exact ⟨rfl, word⟩
  refine ⟨fun a _ => ?_, fun _ => ⟨accessOutcome sh s addr, v, hA.next_response, fun k hk => ?_⟩⟩
  · by_cases ha : SameBlock sh a addr
    · rw [hA.view_after hC.unique ha, hA.view_before hC.unique ha, hL]
    · exact hA.view_other hC ha
  · obtain ⟨hword, hk4⟩ := wordByte_toNat addr hk
    rw [hA.view_before hC.unique (.of_sameWord hok hword), offsetOf_eq_wordOffset_add hok,
      wordOffset_eq_of_sameWord hword hok, hk4, be32_of_unbe32 hv, slice_getElem?_of_lt _ _ hk]

/-- Settles O54: a STORE leaves the line with its block in place but for its word, which stands at the word offset. -/
theorem storeChangesOneWordOfTheView : Obligations.StoreChangesOneWordOfTheView := by
  intro s t sh addr v hI hc hs hb h a _
  obtain ⟨l, b, L, v', hA⟩ := exec_accessed_of_admitted hI.formed rfl hc hs hb h
  have hC := hI.cache sh hc hs
  have hok := hA.ok
  obtain ⟨hroom, hL⟩ : wordOffset sh addr + (be32 v).length ≤ b.data.length
      ∧ L.data = splice b.data (wordOffset sh addr) (be32 v) := by
    have hw := hA.word
    cases hw with
    | store room => exact ⟨room, rfl⟩
  by_cases ha : SameBlock sh a addr
  · have hiff := sameWord_iff_offsetOf hok ha
    rw [hA.view_after hC.unique ha, hA.view_before hC.unique ha, hL, splice_getElem? hroom, be32_length]
    by_cases hword : a.toNat - a.toNat % 4 = addr.toNat - addr.toNat % 4
    · have hplace : offsetOf sh a - wordOffset sh addr = a.toNat % 4 := by
        rw [offsetOf_eq_wordOffset_add hok, wordOffset_eq_of_sameWord (b := addr) (by omega) hok]
        omega
      rw [if_pos hword, if_pos (hiff.1 hword), hplace]
    · rw [if_neg hword, if_neg fun hoff => hword (hiff.2 hoff)]
  · rw [if_neg fun hword => ha (.of_sameWord hok (by omega)), hA.view_other hC ha]

end Sys2Proof.Safety
end

section
/-! The miss-handler state machine (R151, R152): one transition of each state, and that the machine, run from CHECK,
does what the command does. -/

namespace Sys2Proof.Machine

/-! ### The state register -/

/-- The block with its state register at `q`. -/
def State.inFsm (s : State) (q : Fsm) : State := { s with fsm := q }

section InFsm

variable (s : State) (q : Fsm)

@[simp] theorem State.inFsm_configured : (s.inFsm q).configured = s.configured := rfl
@[simp] theorem State.inFsm_lines : (s.inFsm q).lines = s.lines := rfl

theorem account_inFsm (o : HitMiss) : account o (s.inFsm q) = (account o s).inFsm q := by cases o <;> rfl

end InFsm

/-! No operation of an access looks at the state register. -/

section Operations

variable {sh : Shape} {set w : Nat} {s t : State} (q : Fsm)

theorem touch_inFsm (h : touch sh set w s = .ok t) : touch sh set w (s.inFsm q) = .ok (t.inFsm q) := by
  obtain ⟨l, hl, rfl⟩ := touch_ok_iff.1 h
  exact touch_ok_iff.2 ⟨l, hl, rfl⟩

theorem fill_inFsm {tg : Word} {bs : Nat} (h : fill sh set w tg bs s = .ok t) :
    fill sh set w tg bs (s.inFsm q) = .ok (t.inFsm q) := by
  obtain ⟨l, hl, hb, rfl⟩ := fill_ok_iff.1 h
  exact fill_ok_iff.2 ⟨l, hl, hb, rfl⟩

theorem writeBack_inFsm (h : writeBack sh set w s = .ok t) : writeBack sh set w (s.inFsm q) = .ok (t.inFsm q) := by
  obtain ⟨l, hl, hlen, hb, rfl⟩ := writeBack_ok_iff.1 h
  exact writeBack_ok_iff.2 ⟨l, hl, hlen, hb, rfl⟩

theorem writeWord_inFsm {o : Nat} {v : Word} (h : writeWord sh set w o v s = .ok t) :
    writeWord sh set w o v (s.inFsm q) = .ok (t.inFsm q) := by
  obtain ⟨l, hl, ho, rfl⟩ := writeWord_ok_iff.1 h
  exact writeWord_ok_iff.2 ⟨l, hl, ho, rfl⟩

theorem readWord_inFsm (o : Nat) : readWord sh set w o (s.inFsm q) = readWord sh set w o s := rfl

theorem admitAccess_inFsm (addr : Word) : admitAccess addr (s.inFsm q) = admitAccess addr s := rfl

end Operations

/-! ### The transitions -/

/-- The controller `h` serves a LOAD or STORE of `addr` in the shape `sh`. -/
structure Handler.Serves (h : Handler) (addr : Word) (sh : Shape) : Prop where
  addr : accessAddr? h.instr = some addr
  shape : h.st.geometry.shape? = some sh

section Transitions

variable {h h' : Handler} {addr : Word} {sh : Shape}

theorem Handler.tick_check (hq : h.st.fsm = .check) : h.tick = h.check := by rw [Handler.tick, hq]

theorem Handler.tick_respond (hq : h.st.fsm = .respond) :
    h.tick = .ok { h with st := h.st.respond h.status h.payload } := by rw [Handler.tick, hq]

theorem Handler.tick_idle (hq : h.st.fsm = .idle) : h.tick = .ok h := by rw [Handler.tick, hq]

/-- Between CHECK and RESPOND the controller makes the transitions of a LOAD or STORE. -/
theorem Handler.tick_miss (hidle : h.st.fsm ≠ .idle) (hcheck : h.st.fsm ≠ .check) (hrespond : h.st.fsm ≠ .respond) :
    h.tick = h.miss := by
  rw [Handler.tick]
  cases hq : h.st.fsm with
  | idle => exact absurd hq hidle
  | check => exact absurd hq hcheck
  | respond => exact absurd hq hrespond
  | _ => rfl

/-- There is such a transition only for a LOAD or STORE of a block with a shape. -/
theorem Handler.serves_of_miss (hm : h.miss = .ok h') : ∃ addr sh, h.Serves addr sh := by
  unfold Handler.miss at hm
  split at hm
  · exact ⟨_, _, ‹_›, ‹_›⟩
  · cases hm

theorem Handler.Serves.miss_eq (hs : h.Serves addr sh) : h.miss = h.access sh addr := by
  simp only [Handler.miss, hs.addr, hs.shape]

section Serves

variable (hs : h.Serves addr sh)
include hs

theorem Handler.Serves.tick_lookup (hq : h.st.fsm = .lookup) : h.tick = .ok (h.lookup sh addr) := by
  rw [h.tick_miss (by simp [hq]) (by simp [hq]) (by simp [hq]), hs.miss_eq, Handler.access, hq]

theorem Handler.Serves.tick_hitUpdate (hq : h.st.fsm = .hitUpdate) :
    h.tick = h.after (touch sh (setIndex sh addr) h.way h.st) (afterAccess h.instr) := by
  rw [h.tick_miss (by simp [hq]) (by simp [hq]) (by simp [hq]), hs.miss_eq, Handler.access, hq]

theorem Handler.Serves.tick_victim (hq : h.st.fsm = .victim) : h.tick = h.victim sh addr := by
  rw [h.tick_miss (by simp [hq]) (by simp [hq]) (by simp [hq]), hs.miss_eq, Handler.access, hq]

theorem Handler.Serves.tick_writeback (hq : h.st.fsm = .writeback) :
    h.tick = h.after (writeBack sh (setIndex sh addr) h.way h.st) .fill := by
  rw [h.tick_miss (by simp [hq]) (by simp [hq]) (by simp [hq]), hs.miss_eq, Handler.access, hq]

theorem Handler.Serves.tick_fill (hq : h.st.fsm = .fill) :
    h.tick = h.after (fill sh (setIndex sh addr) h.way (tagReg sh addr) (blockStart sh addr) h.st)
      (afterAccess h.instr) := by
  rw [h.tick_miss (by simp [hq]) (by simp [hq]) (by simp [hq]), hs.miss_eq, Handler.access, hq]

theorem Handler.Serves.tick_writeWord (hq : h.st.fsm = .writeWord) : h.tick = h.writeWord sh addr := by
  rw [h.tick_miss (by simp [hq]) (by simp [hq]) (by simp [hq]), hs.miss_eq, Handler.access, hq]

theorem Handler.Serves.tick_account (hq : h.st.fsm = .account) : h.tick = h.account sh addr := by
  rw [h.tick_miss (by simp [hq]) (by simp [hq]) (by simp [hq]), hs.miss_eq, Handler.access, hq]

end Serves

end Transitions

/-! ### A command as its access and its answer -/

/-- What LOAD and STORE do once the block is in way `w`, in the state `s`: a LOAD reads its word, a STORE writes its
word, and the accounting step counts the outcome (R153, R181). -/
inductive Answers (sh : Shape) (addr : Word) (w : Nat) (o : HitMiss) (s : State) : Instr → Reply → Prop where
  | load (v : Word) (word : readWord sh (setIndex sh addr) w (wordOffset sh addr) s = .ok v) :
      Answers sh addr w o s (.load addr) ⟨account o s, o.status, .word v⟩
  | store (v : Word) (s' : State) (word : writeWord sh (setIndex sh addr) w (wordOffset sh addr) v s = .ok s') :
      Answers sh addr w o s (.store addr v) ⟨account o s', o.status, .word v⟩

/-- Everything a LOAD or STORE that completes has done: its checks rejected it, or it accessed and answered. -/
theorem exec_access_answers {i : Instr} {addr : Word} {s t : State} (hi : accessAddr? i = some addr)
    (h : exec i s = .next t) :
    (∃ e, admitAccess addr s = .ok (.rejected e) ∧ t = (reject e s).finish)
    ∨ ∃ sh a r, s.geometry.shape? = some sh ∧ admitAccess addr s = .ok (.admitted sh)
        ∧ accessLine sh (setIndex sh addr) (tagReg sh addr) (blockStart sh addr) s = .ok a
        ∧ Answers sh addr a.way a.outcome a.state i r ∧ t = r.finish := by
  rcases Safety.exec_access_eq i hi with ⟨rfl, -⟩ | ⟨v, rfl, -⟩
  · obtain ⟨r, hr, rfl⟩ := complete_next_iff.1 h
    rcases loadWork_cases hr with ⟨hc, rfl⟩ | ⟨sh, hc, hs, hb, rfl⟩ | ⟨sh, a, v, hc, hs, hb, ha, hv, rfl⟩
    · exact .inl ⟨_, admitAccess_of_not_configured hc, rfl⟩
    · exact .inl ⟨_, Safety.admitAccess_of_not_inBounds hc hs hb, rfl⟩
    · exact .inr ⟨sh, a, _, hs, admitAccess_admitted hc hs hb, ha, .load v hv, rfl⟩
  · obtain ⟨r, hr, rfl⟩ := complete_next_iff.1 h
    rcases storeWork_cases hr with ⟨hc, rfl⟩ | ⟨sh, hc, hs, hb, rfl⟩ | ⟨sh, a, s', hc, hs, hb, ha, hw, rfl⟩
    · exact .inl ⟨_, admitAccess_of_not_configured hc, rfl⟩
    · exact .inl ⟨_, Safety.admitAccess_of_not_inBounds hc hs hb, rfl⟩
    · exact .inr ⟨sh, a, _, hs, admitAccess_admitted hc hs hb, ha, .store v s' hw, rfl⟩

/-- An access that reached a state came from an operation that reached it. -/
theorem Access.of_eq_ok {o : HitMiss} {w : Nat} {r : Except Fault State} {a : Access} (h : Access.of o w r = .ok a) :
    ∃ s, r = .ok s ∧ a = ⟨o, w, s⟩ := by
  cases r with
  | error f => cases h
  | ok s =>
    cases h
    exact ⟨s, rfl, rfl⟩

/-! ### The machine run to IDLE -/

/-- The controller is back in IDLE after at most `n` transitions, with the block in the state `t`. -/
def Handler.Finishes (h : Handler) (n : Nat) (t : State) : Prop :=
  ∃ m ≤ n, ∃ h', h.run m = .ok h' ∧ h'.st.fsm = .idle ∧ h'.st = t

section Finishes

variable {h h' : Handler} {n : Nat} {t : State}

theorem Handler.Finishes.mono {n' : Nat} (hf : h.Finishes n t) (hn : n ≤ n') : h.Finishes n' t := by
  obtain ⟨m, hm, hrun⟩ := hf
  exact ⟨m, hm.trans hn, hrun⟩

/-- One transition, and the rest. -/
theorem Handler.Finishes.of_tick (ht : h.tick = .ok h') (hf : h'.Finishes n t) : h.Finishes (n + 1) t := by
  obtain ⟨m, hm, h'', hrun, hidle, hst⟩ := hf
  exact ⟨m + 1, Nat.succ_le_succ hm, h'', by rw [Handler.run, ht]; exact hrun, hidle, hst⟩

/-- From RESPOND the response is returned (R152). -/
theorem Handler.answered_finishes (h : Handler) (r : Reply) : (h.answered r).Finishes 1 r.finish :=
  .of_tick (Handler.tick_respond rfl) ⟨0, Nat.le_refl 0, _, rfl, rfl, rfl⟩

end Finishes

section Run

variable {i : Instr} {addr : Word} {sh : Shape} {s : State} {w : Nat} {o : HitMiss} {e : Status} {p : Payload}
  {r : Reply} (hi : accessAddr? i = some addr)
include hi

/-- From ACCOUNT the outcome is counted and answered (R152). -/
theorem account_finishes (hs : s.geometry.shape? = some sh) {p' : Payload}
    (hp : (Handler.mk (s.inFsm .account) i w o e p).rdata sh addr = .ok p') :
    (Handler.mk (s.inFsm .account) i w o e p).Finishes 2 (Reply.finish ⟨account o s, o.status, p'⟩) := by
  refine .of_tick (h' := (Handler.mk (s.inFsm .account) i w o e p).answered
    ⟨account o (s.inFsm .account), o.status, p'⟩) ?_ ?_
  · have hserves : (Handler.mk (s.inFsm .account) i w o e p).Serves addr sh := ⟨hi, hs⟩
    rw [hserves.tick_account rfl, Handler.account, hp]
  · rw [account_inFsm]
    exact Handler.answered_finishes _ _

/-- Once the line holds the block, the command does its word and is answered (R152). -/
theorem afterAccess_finishes (hs : s.geometry.shape? = some sh) (hr : Answers sh addr w o s i r) :
    (Handler.mk (s.inFsm (afterAccess i)) i w o e p).Finishes 3 r.finish := by
  cases hr with
  | load v word =>
    refine (account_finishes hi hs (p' := .word v) ?_).mono (by decide)
    simp only [Handler.rdata, storeValue?, readWord_inFsm, word]
  | store v s' word =>
    have hs' : s'.geometry.shape? = some sh := by
      obtain ⟨l, -, -, rfl⟩ := writeWord_ok_iff.1 word
      exact hs
    refine .of_tick (h' := ⟨s'.inFsm .account, .store addr v, w, o, e, .word v⟩) ?_ (account_finishes hi hs' rfl)
    have hserves : (Handler.mk (s.inFsm .writeWord) (.store addr v) w o e p).Serves addr sh := ⟨hi, hs⟩
    refine (hserves.tick_writeWord rfl).trans ?_
    simp only [Handler.writeWord, storeValue?, writeWord_inFsm _ word]
    rfl

/-- From HIT_UPDATE the matching line is stamped (R152, R155). -/
theorem hitUpdate_finishes (hs : s.geometry.shape? = some sh) {s' : State}
    (ht : touch sh (setIndex sh addr) w s = .ok s') (hr : Answers sh addr w o s' i r) :
    (Handler.mk (s.inFsm .hitUpdate) i w o e p).Finishes 4 r.finish := by
  have hs' : s'.geometry.shape? = some sh := by
    obtain ⟨l, -, rfl⟩ := touch_ok_iff.1 ht
    exact hs
  refine .of_tick (h' := ⟨s'.inFsm (afterAccess i), i, w, o, e, p⟩) ?_ (afterAccess_finishes hi hs' hr)
  have hserves : (Handler.mk (s.inFsm .hitUpdate) i w o e p).Serves addr sh := ⟨hi, hs⟩
  rw [hserves.tick_hitUpdate rfl, touch_inFsm _ ht]
  rfl

/-- From FILL the block is copied into the line (R152, R160). -/
theorem fill_finishes (hs : s.geometry.shape? = some sh) {s' : State}
    (ht : fill sh (setIndex sh addr) w (tagReg sh addr) (blockStart sh addr) s = .ok s')
    (hr : Answers sh addr w o s' i r) : (Handler.mk (s.inFsm .fill) i w o e p).Finishes 4 r.finish := by
  have hs' : s'.geometry.shape? = some sh := by
    obtain ⟨l, -, -, rfl⟩ := fill_ok_iff.1 ht
    exact hs
  refine .of_tick (h' := ⟨s'.inFsm (afterAccess i), i, w, o, e, p⟩) ?_ (afterAccess_finishes hi hs' hr)
  have hserves : (Handler.mk (s.inFsm .fill) i w o e p).Serves addr sh := ⟨hi, hs⟩
  rw [hserves.tick_fill rfl, fill_inFsm _ ht]
  rfl

/-- From VICTIM a dirty victim is written back, and the victim is filled (R152, R158, R159). -/
theorem victim_finishes (hs : s.geometry.shape? = some sh) {s' s'' : State} {v : Nat}
    (hv : lruVictim (setLines sh s.lines (setIndex sh addr)) = v) (he : evict sh (setIndex sh addr) v s = .ok s')
    (ht : fill sh (setIndex sh addr) v (tagReg sh addr) (blockStart sh addr) s' = .ok s'')
    (hr : Answers sh addr v o s'' i r) : (Handler.mk (s.inFsm .victim) i w o e p).Finishes 6 r.finish := by
  obtain ⟨l, hl, -⟩ := evict_fill_cases he ht
  have htick : (Handler.mk (s.inFsm .victim) i w o e p).tick
      = .ok ⟨s.inFsm (if l.dirty then .writeback else .fill), i, v, o, e, p⟩ := by
    have hserves : (Handler.mk (s.inFsm .victim) i w o e p).Serves addr sh := ⟨hi, hs⟩
    rw [hserves.tick_victim rfl]
    simp only [Handler.victim, State.inFsm_lines, hv, lineAt_eq (s := s.inFsm .victim) hl]
    rfl
  refine .of_tick htick ?_
  cases hd : l.dirty with
  | false =>
    rw [evict_clean hl hd] at he
    cases he
    exact (fill_finishes hi hs ht hr).mono (by decide)
  | true =>
    rw [evict_dirty hl hd] at he
    have hs' : s'.geometry.shape? = some sh := by
      obtain ⟨l, -, -, -, rfl⟩ := writeBack_ok_iff.1 he
      exact hs
    refine .of_tick (h' := ⟨s'.inFsm .fill, i, v, o, e, p⟩) ?_ (fill_finishes hi hs' ht hr)
    have hserves : (Handler.mk (s.inFsm .writeback) i v o e p).Serves addr sh := ⟨hi, hs⟩
    refine (hserves.tick_writeback rfl).trans ?_
    rw [writeBack_inFsm _ he]
    rfl

/-- From LOOKUP the access takes its path (R152, R140). -/
theorem lookup_finishes (hs : s.geometry.shape? = some sh) {a : Access}
    (ha : accessLine sh (setIndex sh addr) (tagReg sh addr) (blockStart sh addr) s = .ok a)
    (hr : Answers sh addr a.way a.outcome a.state i r) :
    (Handler.mk (s.inFsm .lookup) i w o e p).Finishes 7 r.finish := by
  have hserves : (Handler.mk (s.inFsm .lookup) i w o e p).Serves addr sh := ⟨hi, hs⟩
  have htick := hserves.tick_lookup rfl
  rw [Handler.lookup] at htick
  rw [accessLine] at ha
  cases hf : find (setLines sh s.lines (setIndex sh addr)) (tagReg sh addr) with
  | some w' =>
    simp only [State.inFsm_lines, hf] at htick ha
    obtain ⟨s', ht, rfl⟩ := Access.of_eq_ok ha
    exact .of_tick htick ((hitUpdate_finishes hi hs ht hr).mono (by decide))
  | none =>
    cases hff : firstFree (setLines sh s.lines (setIndex sh addr)) with
    | some w' =>
      simp only [State.inFsm_lines, hf, hff] at htick ha
      obtain ⟨s', ht, rfl⟩ := Access.of_eq_ok ha
      exact .of_tick htick ((fill_finishes hi hs ht hr).mono (by decide))
    | none =>
      simp only [State.inFsm_lines, hf, hff] at htick ha
      split at ha
      · cases ha
      · next s' he =>
        obtain ⟨s'', ht, rfl⟩ := Access.of_eq_ok ha
        exact .of_tick htick (victim_finishes (s := s) hi hs rfl he ht hr)

/-- From CHECK a LOAD or STORE is rejected, or makes its access (R152). -/
theorem check_access_finishes {t : State} (h : exec i s = .next t) :
    (Handler.mk (s.inFsm .check) i w o e p).Finishes 8 t := by
  have hcheck : (Handler.mk (s.inFsm .check) i w o e p).tick
      = (Handler.mk (s.inFsm .check) i w o e p).checkAccess addr := by
    rw [Handler.tick_check rfl]
    rcases Safety.exec_access_eq i hi with ⟨rfl, -⟩ | ⟨v, rfl, -⟩ <;> rfl
  rcases exec_access_answers hi h with ⟨e', hrej, rfl⟩ | ⟨sh, a, r, hs, hadm, ha, hr, rfl⟩
  · have htick : (Handler.mk (s.inFsm .check) i w o e p).tick
        = .ok ((Handler.mk (s.inFsm .check) i w o e p).answered (reject e' (s.inFsm .check))) := by
      rw [hcheck, Handler.checkAccess, admitAccess_inFsm, hrej]
    exact (Handler.Finishes.of_tick htick (Handler.answered_finishes _ _)).mono (by decide)
  · have htick : (Handler.mk (s.inFsm .check) i w o e p).tick = .ok ⟨s.inFsm .lookup, i, w, o, e, p⟩ := by
      rw [hcheck, Handler.checkAccess, admitAccess_inFsm, hadm]
      rfl
    exact .of_tick htick (lookup_finishes hi hs ha hr)

end Run

/-- The work of CONFIGURE does not look at the state register. -/
theorem configureWork_inFsm_finish (bs nb nw : Word) (s : State) (q : Fsm) :
    (configureWork bs nb nw (s.inFsm q)).finish = (configureWork bs nb nw s).finish := by
  unfold configureWork
  rw [State.inFsm_configured]
  split
  · rfl
  · split <;> rfl

/-- The work of DUMP_MEMORY does not look at the state register. -/
theorem dumpMemoryWork_inFsm_finish (addr length : Word) (s : State) (q : Fsm) :
    (dumpMemoryWork addr length (s.inFsm q)).finish = (dumpMemoryWork addr length s).finish := by
  unfold dumpMemoryWork
  split <;> rfl

/-- From CHECK the four other commands do their work and are answered (log 11). -/
theorem check_nonAccess_finishes {i : Instr} {s t : State} {w : Nat} {o : HitMiss} {e : Status} {p : Payload}
    (hi : accessAddr? i = none) (h : exec i s = .next t) :
    (Handler.mk (s.inFsm .check) i w o e p).Finishes 2 t := by
  have hanswered {r : Reply} (hcheck : (Handler.mk (s.inFsm .check) i w o e p).check
      = .ok ((Handler.mk (s.inFsm .check) i w o e p).answered r)) (ht : r.finish = t) :
      (Handler.mk (s.inFsm .check) i w o e p).Finishes 2 t :=
    ht ▸ .of_tick ((Handler.tick_check rfl).trans hcheck) (Handler.answered_finishes _ _)
  cases i with
  | load addr => cases hi
  | store addr v => cases hi
  | configure bs nb nw =>
    cases h
    exact hanswered rfl (configureWork_inFsm_finish bs nb nw s .check)
  | stats =>
    cases h
    exact hanswered rfl rfl
  | dumpMemory addr length =>
    cases h
    exact hanswered rfl (dumpMemoryWork_inFsm_finish addr length s .check)
  | dumpCache =>
    cases h
    exact hanswered rfl rfl

/-- Settles O60: each state of the machine does its part of the command's access and answer, and leaves the rest to the
states after it. -/
theorem missHandlerRunsTheCommand : Obligations.MissHandlerRunsTheCommand := by
  intro i s t h
  change (Handler.start i s).Finishes 8 t
  cases hi : accessAddr? i with
  | none => exact (check_nonAccess_finishes hi h).mono (by decide)
  | some addr => exact check_access_finishes hi h

end Sys2Proof.Machine
end

section
/-! The edges of the miss-handler state machine (R152): where each state goes, and on what condition. -/

namespace Sys2Proof.Machine

open Sys2Proof.Safety

section Edges

variable {h h' : Handler} {addr : Word} {sh : Shape}

/-- Only a LOAD or STORE makes a transition between CHECK and RESPOND. -/
theorem Handler.serves_of_tick (ht : h.tick = .ok h') (hidle : h.st.fsm ≠ .idle) (hcheck : h.st.fsm ≠ .check)
    (hrespond : h.st.fsm ≠ .respond) : ∃ addr sh, h.Serves addr sh :=
  Handler.serves_of_miss ((Handler.tick_miss hidle hcheck hrespond).symm.trans ht)

/-- A transition that does an operation of the access moves the state register and keeps the command. -/
theorem Handler.after_eq_ok {r : Except Fault State} {q : Fsm} (ha : h.after r q = .ok h') :
    ∃ s, h' = ({ h with st := s } : Handler).goto q := by
  cases r with
  | error f => cases ha
  | ok s =>
    cases ha
    exact ⟨s, rfl⟩

/-- Everything CHECK of a LOAD or STORE can do (R152, R252, R253). -/
theorem Handler.checkAccess_eq_ok (hc : h.checkAccess addr = .ok h') :
    (h.st.configured = false ∧ h' = h.answered (reject .sequenceError h.st))
    ∨ (∃ sh, h.st.configured = true ∧ h.st.geometry.shape? = some sh ∧ inBounds sh addr = false
        ∧ h' = h.answered (reject .outOfBounds h.st))
    ∨ ∃ sh, h.st.configured = true ∧ h.st.geometry.shape? = some sh ∧ inBounds sh addr = true
        ∧ h' = h.goto .lookup := by
  unfold Handler.checkAccess at hc
  split at hc
  · cases hc
  · next e hadm =>
    cases hc
    rcases admitAccess_cases hadm with ⟨hconf, he⟩ | ⟨sh, hconf, hs, hb, he⟩ | ⟨sh, -, -, -, he⟩
    · cases he
      exact .inl ⟨hconf, rfl⟩
    · cases he
      exact .inr (.inl ⟨sh, hconf, hs, hb, rfl⟩)
    · cases he
  · next sh hadm =>
    cases hc
    rcases admitAccess_cases hadm with ⟨-, he⟩ | ⟨sh', -, -, -, he⟩ | ⟨sh', hconf, hs, hb, he⟩
    · cases he
    · cases he
    · exact .inr (.inr ⟨sh', hconf, hs, hb, rfl⟩)

theorem Handler.check_of_access (hi : accessAddr? h.instr = some addr) : h.check = h.checkAccess addr := by
  obtain ⟨s, i, w, o, e, p⟩ := h
  rcases exec_access_eq i hi with ⟨rfl, -⟩ | ⟨v, rfl, -⟩ <;> rfl

/-- CHECK of the four other commands does their work and goes to RESPOND (log 11). -/
theorem Handler.check_of_nonAccess (hi : accessAddr? h.instr = none) (hc : h.check = .ok h') :
    ∃ r, h' = h.answered r := by
  obtain ⟨s, i, w, o, e, p⟩ := h
  cases i with
  | load addr => cases hi
  | store addr v => cases hi
  | _ =>
    cases hc
    exact ⟨_, rfl⟩

/-- LOOKUP goes the way of the access (R140). -/
theorem Handler.lookup_cases (h : Handler) (sh : Shape) (addr : Word) :
    (∃ w, find (waysOf sh h.st addr) (tagReg sh addr) = some w
        ∧ h.lookup sh addr = ({ h with way := w, outcome := .hit } : Handler).goto .hitUpdate)
    ∨ (find (waysOf sh h.st addr) (tagReg sh addr) = none ∧ ∃ w, firstFree (waysOf sh h.st addr) = some w
        ∧ h.lookup sh addr = ({ h with way := w, outcome := .miss } : Handler).goto .fill)
    ∨ (find (waysOf sh h.st addr) (tagReg sh addr) = none ∧ firstFree (waysOf sh h.st addr) = none
        ∧ h.lookup sh addr = ({ h with outcome := .miss } : Handler).goto .victim) := by
  unfold Handler.lookup
  split
  · next w hf => exact .inl ⟨w, hf, rfl⟩
  · next hf =>
    split
    · next w hff => exact .inr (.inl ⟨hf, w, hff, rfl⟩)
    · next hff => exact .inr (.inr ⟨hf, hff, rfl⟩)

/-- VICTIM picks the LRU way, and its next state by the dirty bit of that way (R152). -/
theorem Handler.victim_eq_ok (hv : h.victim sh addr = .ok h') :
    ∃ l, h.st.lines[lineIndex sh (setIndex sh addr) (lruVictim (waysOf sh h.st addr))]? = some l
      ∧ h' = ({ h with way := lruVictim (waysOf sh h.st addr) } : Handler).goto
          (if l.dirty then .writeback else .fill) := by
  unfold Handler.victim at hv
  split at hv
  · cases hv
  · next l hl =>
    cases hv
    exact ⟨l, lineAt_ok_iff.1 hl, rfl⟩

/-- WRITE_WORD goes to ACCOUNT (R152). -/
theorem Handler.writeWord_eq_ok (hw : h.writeWord sh addr = .ok h') : h'.st.fsm = .account ∧ h'.instr = h.instr := by
  unfold Handler.writeWord at hw
  split at hw
  · cases hw
    exact ⟨rfl, rfl⟩
  · obtain ⟨s, rfl⟩ := Handler.after_eq_ok hw
    exact ⟨rfl, rfl⟩

/-- ACCOUNT goes to RESPOND with its answer (R152). -/
theorem Handler.account_eq_ok (ha : h.account sh addr = .ok h') : ∃ r, h' = h.answered r := by
  unfold Handler.account at ha
  split at ha
  · cases ha
  · cases ha
    exact ⟨_, rfl⟩

theorem Handler.answered_fields (h : Handler) (r : Reply) :
    (h.answered r).st = { r.state with fsm := .respond } ∧ (h.answered r).instr = h.instr
      ∧ (h.answered r).status = r.status ∧ (h.answered r).payload = r.payload := ⟨rfl, rfl, rfl, rfl⟩

/-- After its access a STORE goes to WRITE_WORD, a LOAD to ACCOUNT (R152). -/
theorem afterAccess_eq (i : Instr) : afterAccess i = if (storeValue? i).isSome then .writeWord else .account := by
  unfold afterAccess
  cases storeValue? i <;> rfl

end Edges

/-- Settles O59: the transition of each state, whose conditions are those of the operation it does. -/
theorem missHandlerTransitions : Obligations.MissHandlerTransitions := by
  refine ⟨fun i s => ⟨rfl, rfl⟩, fun h h' ht => ?_⟩
  cases hq : h.st.fsm with
  | idle =>
    cases (Handler.tick_idle hq).symm.trans ht
    simp [hq, fsmEdge]
  | respond =>
    cases (Handler.tick_respond hq).symm.trans ht
    simp [State.respond, fsmEdge]
  | check =>
    rw [Handler.tick_check hq] at ht
    cases hi : accessAddr? h.instr with
    | none =>
      obtain ⟨r, rfl⟩ := Handler.check_of_nonAccess hi ht
      simp [Handler.answered_fields, fsmEdge]
    | some addr =>
      rw [Handler.check_of_access hi] at ht
      rcases Handler.checkAccess_eq_ok ht with ⟨hc, rfl⟩ | ⟨sh, hc, hs, hb, rfl⟩ | ⟨sh, hc, hs, hb, rfl⟩
      · simp [Handler.answered_fields, fsmEdge, hc, reject]
      · simp [Handler.answered_fields, fsmEdge, hc, hs, hb, reject]
      · simp [Handler.goto, fsmEdge, hi, hc, hs, hb]
  | lookup =>
    obtain ⟨addr, sh, hs⟩ := Handler.serves_of_tick ht (by simp [hq]) (by simp [hq]) (by simp [hq])
    cases (hs.tick_lookup hq).symm.trans ht
    rcases Handler.lookup_cases h sh addr with ⟨w, hf, he⟩ | ⟨hf, w, hff, he⟩ | ⟨hf, hff, he⟩
    · simp [he, Handler.goto, fsmEdge, hs.addr, hs.shape, hf]
    · simp [he, Handler.goto, fsmEdge, hs.addr, hs.shape, hf, hff]
    · simp [he, Handler.goto, fsmEdge, hs.addr, hs.shape, hf, hff]
  | hitUpdate =>
    obtain ⟨addr, sh, hs⟩ := Handler.serves_of_tick ht (by simp [hq]) (by simp [hq]) (by simp [hq])
    obtain ⟨s, rfl⟩ := Handler.after_eq_ok ((hs.tick_hitUpdate hq).symm.trans ht)
    cases hv : storeValue? h.instr <;> simp [Handler.goto, fsmEdge, afterAccess_eq, hv]
  | victim =>
    obtain ⟨addr, sh, hs⟩ := Handler.serves_of_tick ht (by simp [hq]) (by simp [hq]) (by simp [hq])
    obtain ⟨l, hl, rfl⟩ := Handler.victim_eq_ok ((hs.tick_victim hq).symm.trans ht)
    cases hd : l.dirty <;> simp [Handler.goto, fsmEdge, hs.addr, hs.shape, hl, hd]
  | writeback =>
    obtain ⟨addr, sh, hs⟩ := Handler.serves_of_tick ht (by simp [hq]) (by simp [hq]) (by simp [hq])
    obtain ⟨s, rfl⟩ := Handler.after_eq_ok ((hs.tick_writeback hq).symm.trans ht)
    simp [Handler.goto, fsmEdge]
  | fill =>
    obtain ⟨addr, sh, hs⟩ := Handler.serves_of_tick ht (by simp [hq]) (by simp [hq]) (by simp [hq])
    obtain ⟨s, rfl⟩ := Handler.after_eq_ok ((hs.tick_fill hq).symm.trans ht)
    cases hv : storeValue? h.instr <;> simp [Handler.goto, fsmEdge, afterAccess_eq, hv]
  | writeWord =>
    obtain ⟨addr, sh, hs⟩ := Handler.serves_of_tick ht (by simp [hq]) (by simp [hq]) (by simp [hq])
    obtain ⟨hfsm, hinstr⟩ := Handler.writeWord_eq_ok ((hs.tick_writeWord hq).symm.trans ht)
    simp [hfsm, hinstr, fsmEdge]
  | account =>
    obtain ⟨addr, sh, hs⟩ := Handler.serves_of_tick ht (by simp [hq]) (by simp [hq]) (by simp [hq])
    obtain ⟨r, rfl⟩ := Handler.account_eq_ok ((hs.tick_account hq).symm.trans ht)
    simp [Handler.answered_fields, fsmEdge]

end Sys2Proof.Machine
end
